-- ==== Sys2Proof/Word.lean ====
section
/-! DEFINITION. The value types of 00_scope.md rules R5 and R9: bytes, half-words and 32-bit words, the signed
reading `s32` of a word and the narrowing `wrap32` of an exact integer. -/

namespace Sys2Proof

/-- `u8` of R9. -/
abbrev Byte := BitVec 8

/-- `u16` of R9: a half-word, and the code of a character (R49, R150). -/
abbrev Half := BitVec 16

/-- The 32 bits of a register or of a word in memory (R5, R9). -/
abbrev Word := BitVec 32

/-- `s32` of R9: the signed integer a 32-bit string stands for. -/
def s32 (w : Word) : Int := w.toInt

/-- `wrap32` of R9: the 32-bit value congruent to `n` modulo 2^32. -/
def wrap32 (n : Int) : Word := BitVec.ofInt 32 n

end Sys2Proof
end

