-- ==== Sys2Proof/Config.lean ====
section
/-! DEFINITION. The implementation parameters of 00_scope.md rule R7, and the free value of the assembler. The
parameter `render` of 44_console.md rule R151 is declared beside the events, in Machine/Console.lean. -/

namespace Sys2Proof

/-- `MEM_SIZE` of the machine that `State.reset` describes (R6: 4096 by default). Every statement is about a memory
of any size (assumption log, entry 1). -/
def Config.memSize : Nat := 4096

/-- The largest memory size R6 allows. -/
def Config.maxMemSize : Nat := 2 ^ 31 - 1

/-- `LOAD_BASE` of R7 and R54: where the image goes, and the entry point. -/
def Config.loadBase : Nat := 0

/-- What a byte of memory that nothing has written reads as: 0, the reset value of R32. -/
def Config.unlistedByte : Byte := 0

/-- FREE VALUE. The column a ParseError carries when the line ends inside a number's sign, a string or an escape
(R170, R172): R185 asks for the column of the offending character and there is none. It is a function of the line's
text and nothing constrains it (assumption log, entry 7). -/
opaque Config.endOfLineColumn : List Char → Nat

end Sys2Proof
end

