-- ==== Sys2Proof/Syntax.lean ====
section
/-! DEFINITION. Registers and instructions: one constructor for each row of spec/opcode_table.json. -/

namespace Sys2Proof

/-- A register index, 0 to 19 (10_state.md R20, R22). A register field of an encoded instruction is a whole byte; the
decoder turns a legal one into a `Reg` and faults on any other (30_encoding.md R62, R72). -/
abbrev Reg := Fin 20

/-- Register 16, `$ra` (R21). -/
abbrev Reg.ra : Reg := 16
/-- Register 17, `$sp` (R21). -/
abbrev Reg.sp : Reg := 17
/-- Register 18, `$pc` (R21, R24). -/
abbrev Reg.pc : Reg := 18
/-- Register 19, `$rs` (R21). -/
abbrev Reg.rs : Reg := 19

/-- The instructions of 30_encoding.md R65, in opcode order. The fields are the operands `A`, `B`, `C` and `lit` of
R13, in encoding order. -/
inductive Instr where
  /-- 0x00, 42_control.md R120 -/
  | nop
  /-- 0x01, 44_console.md R152 -/
  | input
  /-- 0x02, 44_console.md R153 -/
  | inputChar
  /-- 0x03, 41_alu.md R91 -/
  | add (a b c : Reg)
  /-- 0x04, 41_alu.md R92 -/
  | subt (a b c : Reg)
  /-- 0x05, 41_alu.md R93 -/
  | mult (a b c : Reg)
  /-- 0x06, 41_alu.md R94 -/
  | div (a b c : Reg)
  /-- 0x07, 41_alu.md R95 -/
  | neg (a b : Reg)
  /-- 0x08, 41_alu.md R96 -/
  | and (a b c : Reg)
  /-- 0x09, 41_alu.md R97 -/
  | or (a b c : Reg)
  /-- 0x0A, 41_alu.md R98 -/
  | lshift (a b : Reg)
  /-- 0x0B, 41_alu.md R99 -/
  | rshift (a b : Reg)
  /-- 0x0C, 41_alu.md R100 -/
  | gt (a b c : Reg)
  /-- 0x0D, 41_alu.md R101 -/
  | lt (a b c : Reg)
  /-- 0x0E, 41_alu.md R102 -/
  | eq (a b c : Reg)
  /-- 0x0F, 42_control.md R121 -/
  | branch (a b : Reg)
  /-- 0x10, 42_control.md R122 -/
  | jump (a : Reg)
  /-- 0x11, 41_alu.md R103 -/
  | copy (a b : Reg)
  /-- 0x12, 44_console.md R154 -/
  | output (a : Reg)
  /-- 0x13, 44_console.md R155 -/
  | outputChar (a : Reg)
  /-- 0x14, 43_memory_stack.md R136 -/
  | pushStk (a : Reg)
  /-- 0x15, 43_memory_stack.md R137 -/
  | popStk (a : Reg)
  /-- 0x17, 43_memory_stack.md R138 -/
  | load (a b : Reg)
  /-- 0x18, 43_memory_stack.md R139 -/
  | loadByte (a b : Reg)
  /-- 0x19, 43_memory_stack.md R140 -/
  | store (a b : Reg)
  /-- 0x1A, 43_memory_stack.md R141 -/
  | storeByte (a b : Reg)
  /-- 0x1B, 44_console.md R156 -/
  | outputStr (a : Reg)
  /-- 0x1C, 44_console.md R157 -/
  | coreDump (a b : Reg)
  /-- 0x1D, 41_alu.md R104 -/
  | loadLit (lit : Word)
  /-- 0x1E, 42_control.md R123 -/
  | jumpLit (lit : Word)
  /-- 0x1E again: the assembler's second spelling of JUMP_LIT (R75, R123, R177; assumption log, entry 4) -/
  | jumpLabel (lit : Word)
  /-- 0x1F, 42_control.md R124 -/
  | branchLit (a : Reg) (lit : Word)
  /-- 0x20, 41_alu.md R105 -/
  | set (a : Reg) (lit : Word)
  /-- 0xFF, 42_control.md R125 -/
  | halt
deriving DecidableEq, Repr

end Sys2Proof
end

