-- ==== Sys2Proof/WellFormed.lean ====
section
/-! DEFINITION. The checks a value must pass to be an instruction field, an instruction the engine's decoder answers,
a memory size or a loadable image. That a register operand is 0 to 19 is carried by the type `Reg`. -/

namespace Sys2Proof

/-- A register field byte names a register exactly when it is at most 19 (30_encoding.md R62, R72). -/
def fieldWellFormed (f : Byte) : Bool := f.toNat < 20

/-- The instruction with the opcode table's own name for its opcode: JUMP_LABEL is JUMP_LIT (R73, R75). -/
def Instr.canonical : Instr → Instr
  | .nop => .nop
  | .input => .input
  | .inputChar => .inputChar
  | .add a b c => .add a b c
  | .subt a b c => .subt a b c
  | .mult a b c => .mult a b c
  | .div a b c => .div a b c
  | .neg a b => .neg a b
  | .and a b c => .and a b c
  | .or a b c => .or a b c
  | .lshift a b => .lshift a b
  | .rshift a b => .rshift a b
  | .gt a b c => .gt a b c
  | .lt a b c => .lt a b c
  | .eq a b c => .eq a b c
  | .branch a b => .branch a b
  | .jump a => .jump a
  | .copy a b => .copy a b
  | .output a => .output a
  | .outputChar a => .outputChar a
  | .pushStk a => .pushStk a
  | .popStk a => .popStk a
  | .load a b => .load a b
  | .loadByte a b => .loadByte a b
  | .store a b => .store a b
  | .storeByte a b => .storeByte a b
  | .outputStr a => .outputStr a
  | .coreDump a b => .coreDump a b
  | .loadLit l => .loadLit l
  | .jumpLit l => .jumpLit l
  | .jumpLabel l => .jumpLit l
  | .branchLit a l => .branchLit a l
  | .set a l => .set a l
  | .halt => .halt

/-- An instruction the engine's decoder can answer: one written with its opcode's own name (R65, R75). JUMP_LABEL is
assembler text for JUMP_LIT, so no byte string decodes to it. -/
def Instr.wellFormed (i : Instr) : Bool := i.canonical == i

/-- A legal memory size (00_scope.md R6). -/
def memSizeWellFormed (n : Nat) : Bool := 1 ≤ n && n ≤ Config.maxMemSize

/-- An image the loader accepts into `memSize` bytes (70_reset_and_hazards.md R221). -/
def imageFits (memSize : Nat) (image : List Byte) : Bool := image.length ≤ memSize

end Sys2Proof
end

