-- ==== Sys2Proof/Decode.lean ====
section
/-! DEFINITION. Bytes to instructions and back (30_encoding.md): the opcode map R65, the formats R61, the decoder R71,
the encoder R74, and the big-endian byte order of words and half-words (R43, R63). -/

namespace Sys2Proof

/-! ### Byte order -/

/-- Four bytes as a word, the first one most significant (R43, R63). -/
def wordOfBytes (b0 b1 b2 b3 : Byte) : Word := b0 ++ b1 ++ b2 ++ b3

/-- The four bytes of a word, most significant first (R43, R63). -/
def bytesOfWord (w : Word) : List Byte :=
  [w.extractLsb' 24 8, w.extractLsb' 16 8, w.extractLsb' 8 8, w.extractLsb' 0 8]

/-- Two bytes as a half-word, the first one most significant (R43, R46). -/
def halfOfBytes (b0 b1 : Byte) : Half := b0 ++ b1

/-- The two bytes of a half-word, most significant first (R43, R46). -/
def bytesOfHalf (h : Half) : List Byte := [h.extractLsb' 8 8, h.extractLsb' 0 8]

/-! ### Formats and the opcode map -/

/-- The six formats of R61. -/
inductive Format where
  | n | r1 | r2 | r3 | l | rl
deriving DecidableEq, Repr

/-- The length of an instruction of a format, in bytes (R61, R66). -/
def Format.length : Format → Nat
  | .n => 1
  | .r1 => 2
  | .r2 => 3
  | .r3 => 4
  | .l => 5
  | .rl => 6

/-- A row of the opcode map: the operands its format takes and the instruction they make. -/
inductive Shape where
  | n (i : Instr)
  | r1 (f : Reg → Instr)
  | r2 (f : Reg → Reg → Instr)
  | r3 (f : Reg → Reg → Reg → Instr)
  | l (f : Word → Instr)
  | rl (f : Reg → Word → Instr)

/-- The format of a row. -/
def Shape.format : Shape → Format
  | .n _ => .n
  | .r1 _ => .r1
  | .r2 _ => .r2
  | .r3 _ => .r3
  | .l _ => .l
  | .rl _ => .rl

/-- The complete opcode map R65; `none` for the illegal opcodes of R67. -/
def shapeOf (op : Byte) : Option Shape :=
  match op.toNat with
  | 0x00 => some (.n .nop)
  | 0x01 => some (.n .input)
  | 0x02 => some (.n .inputChar)
  | 0x03 => some (.r3 .add)
  | 0x04 => some (.r3 .subt)
  | 0x05 => some (.r3 .mult)
  | 0x06 => some (.r3 .div)
  | 0x07 => some (.r2 .neg)
  | 0x08 => some (.r3 .and)
  | 0x09 => some (.r3 .or)
  | 0x0A => some (.r2 .lshift)
  | 0x0B => some (.r2 .rshift)
  | 0x0C => some (.r3 .gt)
  | 0x0D => some (.r3 .lt)
  | 0x0E => some (.r3 .eq)
  | 0x0F => some (.r2 .branch)
  | 0x10 => some (.r1 .jump)
  | 0x11 => some (.r2 .copy)
  | 0x12 => some (.r1 .output)
  | 0x13 => some (.r1 .outputChar)
  | 0x14 => some (.r1 .pushStk)
  | 0x15 => some (.r1 .popStk)
  | 0x17 => some (.r2 .load)
  | 0x18 => some (.r2 .loadByte)
  | 0x19 => some (.r2 .store)
  | 0x1A => some (.r2 .storeByte)
  | 0x1B => some (.r1 .outputStr)
  | 0x1C => some (.r2 .coreDump)
  | 0x1D => some (.l .loadLit)
  | 0x1E => some (.l .jumpLit)
  | 0x1F => some (.rl .branchLit)
  | 0x20 => some (.rl .set)
  | 0xFF => some (.n .halt)
  | _ => none

/-- The category function of R66; `none` is its `illegal`. -/
def category (op : Byte) : Option Format := (shapeOf op).map Shape.format

/-! ### The decoder -/

/-- Why a byte string is not an instruction. Each is a runtime fault of 60_exceptions.md R201. -/
inductive DecodeError where
  /-- the bytes end before the instruction does: FETCH_RANGE -/
  | truncated
  /-- the first byte is no opcode: ILLEGAL_OPCODE (R67) -/
  | illegalOpcode
  /-- a register field is over 19: BAD_REGISTER (R72) -/
  | badRegister
deriving DecidableEq, Repr

/-- The register a field byte names (R62). -/
def regOfByte (f : Byte) : Option Reg :=
  if h : f.toNat < 20 then some ⟨f.toNat, h⟩ else none

/-- The field byte of a register (R62). -/
def byteOfReg (r : Reg) : Byte := BitVec.ofNat 8 r.val

/-- An instruction and the bytes after it, or BAD_REGISTER where a field named no register (R72). -/
def orBadRegister (i : Option Instr) (rest : List Byte) : Except DecodeError (Instr × List Byte) :=
  match i with
  | some i => .ok (i, rest)
  | none => .error .badRegister

/-- The operand bytes of a row read by R61 and R63: all of them are there before a register field is checked (R72). -/
def decodeOperands (sh : Shape) (bs : List Byte) : Except DecodeError (Instr × List Byte) :=
  match sh with
  | .n i => .ok (i, bs)
  | .r1 f =>
    match bs with
    | a :: rest => orBadRegister ((regOfByte a).map f) rest
    | _ => .error .truncated
  | .r2 f =>
    match bs with
    | a :: b :: rest =>
      orBadRegister ((regOfByte a).bind fun ra => (regOfByte b).map fun rb => f ra rb) rest
    | _ => .error .truncated
  | .r3 f =>
    match bs with
    | a :: b :: c :: rest =>
      orBadRegister
        ((regOfByte a).bind fun ra => (regOfByte b).bind fun rb => (regOfByte c).map fun rc => f ra rb rc) rest
    | _ => .error .truncated
  | .l f =>
    match bs with
    | l0 :: l1 :: l2 :: l3 :: rest => .ok (f (wordOfBytes l0 l1 l2 l3), rest)
    | _ => .error .truncated
  | .rl f =>
    match bs with
    | a :: l0 :: l1 :: l2 :: l3 :: rest =>
      orBadRegister ((regOfByte a).map fun ra => f ra (wordOfBytes l0 l1 l2 l3)) rest
    | _ => .error .truncated

/-- The decoder of R71 on the bytes from an address to the end of memory: the instruction they start with and the
bytes after it. The order of the checks is that of R88. -/
def decode (bs : List Byte) : Except DecodeError (Instr × List Byte) :=
  match bs with
  | [] => .error .truncated
  | op :: rest =>
    match shapeOf op with
    | none => .error .illegalOpcode
    | some sh => decodeOperands sh rest

/-- The instructions a byte string holds one after another, as an image does (R60); the fuel is the number of bytes,
since each instruction takes at least one. -/
def decodeAll : Nat → List Byte → Except DecodeError (List Instr)
  | _, [] => .ok []
  | 0, _ :: _ => .error .truncated
  | fuel + 1, b :: bs =>
    match decode (b :: bs) with
    | .error e => .error e
    | .ok (i, rest) =>
      match decodeAll fuel rest with
      | .error e => .error e
      | .ok is => .ok (i :: is)

/-! ### The encoder -/

/-- The opcode byte of an instruction (R65). -/
def Instr.opcode : Instr → Byte
  | .nop => 0x00
  | .input => 0x01
  | .inputChar => 0x02
  | .add _ _ _ => 0x03
  | .subt _ _ _ => 0x04
  | .mult _ _ _ => 0x05
  | .div _ _ _ => 0x06
  | .neg _ _ => 0x07
  | .and _ _ _ => 0x08
  | .or _ _ _ => 0x09
  | .lshift _ _ => 0x0A
  | .rshift _ _ => 0x0B
  | .gt _ _ _ => 0x0C
  | .lt _ _ _ => 0x0D
  | .eq _ _ _ => 0x0E
  | .branch _ _ => 0x0F
  | .jump _ => 0x10
  | .copy _ _ => 0x11
  | .output _ => 0x12
  | .outputChar _ => 0x13
  | .pushStk _ => 0x14
  | .popStk _ => 0x15
  | .load _ _ => 0x17
  | .loadByte _ _ => 0x18
  | .store _ _ => 0x19
  | .storeByte _ _ => 0x1A
  | .outputStr _ => 0x1B
  | .coreDump _ _ => 0x1C
  | .loadLit _ => 0x1D
  | .jumpLit _ => 0x1E
  | .jumpLabel _ => 0x1E
  | .branchLit _ _ => 0x1F
  | .set _ _ => 0x20
  | .halt => 0xFF

/-- The operands of an instruction in encoding order: its register fields, and its literal if it has one (R61). -/
def Instr.operands : Instr → List Reg × Option Word
  | .nop => ([], none)
  | .input => ([], none)
  | .inputChar => ([], none)
  | .add a b c => ([a, b, c], none)
  | .subt a b c => ([a, b, c], none)
  | .mult a b c => ([a, b, c], none)
  | .div a b c => ([a, b, c], none)
  | .neg a b => ([a, b], none)
  | .and a b c => ([a, b, c], none)
  | .or a b c => ([a, b, c], none)
  | .lshift a b => ([a, b], none)
  | .rshift a b => ([a, b], none)
  | .gt a b c => ([a, b, c], none)
  | .lt a b c => ([a, b, c], none)
  | .eq a b c => ([a, b, c], none)
  | .branch a b => ([a, b], none)
  | .jump a => ([a], none)
  | .copy a b => ([a, b], none)
  | .output a => ([a], none)
  | .outputChar a => ([a], none)
  | .pushStk a => ([a], none)
  | .popStk a => ([a], none)
  | .load a b => ([a, b], none)
  | .loadByte a b => ([a, b], none)
  | .store a b => ([a, b], none)
  | .storeByte a b => ([a, b], none)
  | .outputStr a => ([a], none)
  | .coreDump a b => ([a, b], none)
  | .loadLit l => ([], some l)
  | .jumpLit l => ([], some l)
  | .jumpLabel l => ([], some l)
  | .branchLit a l => ([a], some l)
  | .set a l => ([a], some l)
  | .halt => ([], none)

/-- The encoder of R74: the opcode, the register fields in order, the literal big-endian. -/
def encode (i : Instr) : List Byte :=
  i.opcode :: (i.operands.1.map byteOfReg ++ (i.operands.2.map bytesOfWord).getD [])

/-- The bytes of an image of instructions, one after another (45_assembler.md R184). -/
def encodeAll (is : List Instr) : List Byte := is.flatMap encode

/-- The length of an instruction in bytes, fixed by its opcode (R66, R70). -/
def Instr.length (i : Instr) : Nat := ((category i.opcode).map Format.length).getD 0

/-! ### The opcode table's numbering -/

/-- The six bytes, the longest instruction, that hold the low `nbits` bits of `w`: byte 0 is bits 7:0, byte 1 is bits
15:8, and so on; every bit above `nbits` is 0. -/
def tableBytes (nbits w : Nat) : List Byte :=
  [0, 1, 2, 3, 4, 5].map fun k => BitVec.ofNat 8 ((w % 2 ^ nbits) >>> (8 * k))

/-- The instruction the decoder reads from an instruction numbered as spec/opcode_table.json numbers its bits. -/
def decodeTableWord (nbits w : Nat) : Option Instr :=
  match decode (tableBytes nbits w) with
  | .ok (i, _) => some i
  | .error _ => none

end Sys2Proof
end

