-- ==== Sys2Proof/Machine/State.lean ====
section
/-! DEFINITION. The engine's state (10_state.md R31), its reset (R32), and the reasons a step can end without a next
state. -/

namespace Sys2Proof.Machine

/-- Memory (10_state.md R29, 20_memory.md R40): `size` is `MEM_SIZE` of R6, `cells` the bytes of the array that are not
`Config.unlistedByte`, by rising address. -/
structure Memory where
  size : Nat
  cells : List Host.Cell
deriving DecidableEq, Repr

/-- Every key is at least `lo` and below `size`, the keys rise strictly, and no byte is the unlisted one. -/
def cellsWellFormed (size : Nat) : Nat → List Host.Cell → Bool
  | _, [] => true
  | lo, (k, b) :: t => lo ≤ k && k < size && b != Config.unlistedByte && cellsWellFormed size (k + 1) t

/-- The canonical form of memory: a legal size (00_scope.md R6), and the cells in the one form that makes equal
memories equal data. -/
def Memory.wf (m : Memory) : Bool :=
  1 ≤ m.size && m.size ≤ Config.maxMemSize && cellsWellFormed m.size 0 m.cells

/-- The causes of a runtime fault (60_exceptions.md R201). -/
inductive Cause where
  /-- code 1: the pc, or the end of the instruction, is outside memory (40_cycle.md R81, R82) -/
  | fetchRange
  /-- code 2: the opcode byte is no opcode (30_encoding.md R67) -/
  | illegalOpcode
  /-- code 3: a register field is over 19 (30_encoding.md R72) -/
  | badRegister
  /-- code 4: DIV by 0 (41_alu.md R94) -/
  | divZero
  /-- code 5: a data access is not in range (20_memory.md R48) -/
  | memRange
deriving DecidableEq, Repr

/-- The fault record of 10_state.md R27: the cause and the address of the failing instruction's opcode byte. -/
structure FaultRecord where
  cause : Cause
  addr : Word
deriving DecidableEq, Repr

/-- The output events of 44_console.md R151. -/
inductive Event where
  /-- `OutInt(v)`, from OUTPUT -/
  | outInt (v : Word)
  /-- `OutChar(c)`, from OUTPUT_CHAR -/
  | outChar (c : Half)
  /-- `OutStr(s)`, from OUTPUT_STR -/
  | outStr (s : List Half)
  /-- `OutDump(a, bs)`, from CORE_DUMP -/
  | outDump (a : Word) (bs : List Byte)
deriving DecidableEq, Repr

/-- The engine's state, R31's record, and the console's answers.

`inInts` and `inChars` are the MODEL's own (DESIGN CHOICE, assumption log, entry 2): what the console oracle of
44_console.md R150 will answer to the next INPUTs and INPUT_CHARs, in order. A statement about every state
is a statement about every answer. `started` is the MODEL's own too (DEDUCED, entry 13): R222 lets the host place a
string between load and the first step only, so the state says whether a step was taken. -/
structure State where
  /-- the 20 registers; index 18 is the pc (R20, R24) -/
  regs : Vector Word 20
  /-- memory (R29) -/
  mem : Memory
  /-- the active flag (R26) -/
  active : Bool
  /-- the fault record (R27) -/
  fault : Option FaultRecord
  /-- the output sequence, oldest event first (R30) -/
  out : List Event
  /-- the integers the console will supply (R150) -/
  inInts : List Word
  /-- the character codes the console will supply (R150) -/
  inChars : List Half
  /-- a step was taken since the load (R222) -/
  started : Bool
deriving DecidableEq, Repr

/-- Why a step has no next state though the spec gives the instruction a meaning. None of these is a runtime fault of
60_exceptions.md: a runtime fault is a next state (R203; assumption log, entry 3). -/
inductive Fault where
  /-- Raised by `step`: the engine has halted, and a halted engine takes no step (40_cycle.md R80). Safe: the spec says
  the same. -/
  | halted
  /-- Raised by `step`: the fault record is set, and a faulted engine takes no step (R80, R204). Safe: the spec says
  the same. -/
  | faulted
  /-- Raised by INPUT and INPUT_CHAR: the console has supplied no value, so the step has no transition
  (40_cycle.md R89, 44_console.md R150). Safe: the spec says the same. -/
  | consoleBlocked
deriving DecidableEq, Repr

/-- Why an instruction has no meaning in the model. -/
inductive Refusal where
  /-- Raised by an arm of `exec` whose instruction is not modelled: no arm is left so. Safe: nothing is claimed. -/
  | notModelled (mnemonic : String)
deriving DecidableEq, Repr

/-- The reset values of 10_state.md R32 with the empty image in a memory of `Config.memSize` bytes: every register 0,
the pc at the load base, every byte 0, active, no fault, no output. The console has supplied nothing yet and no
step was taken. How a program comes to run is said in the assumption log, entry 5. -/
def State.reset : State where
  regs := (Vector.replicate 20 0#32).set Reg.pc.val (BitVec.ofNat 32 Config.loadBase)
  mem := { size := Config.memSize, cells := [] }
  active := true
  fault := none
  out := []
  inInts := []
  inChars := []
  started := false

end Sys2Proof.Machine
end

