-- ==== Sys2Proof/Machine/Ops.lean ====
section
/-! DEFINITION. The operations every instruction is made of: registers, memory, the end of an instruction, output, and
taking a runtime fault. -/

namespace Sys2Proof.Machine

/-! ### Registers -/

/-- `x[r]` of 00_scope.md R10. Register 18 holds the address of the current instruction until the instruction ends, so
it reads as `cur` (40_cycle.md R85). No register is hardwired (10_state.md R22). -/
def State.reg (s : State) (r : Reg) : Word := s.regs[r.val]

/-- `x[r] <- v` of R10. -/
def State.setReg (s : State) (r : Reg) (v : Word) : State := { s with regs := s.regs.set r.val v }

/-- The writes of an instruction, in the order its rule lists them; of two writes to one register the later stays
(40_cycle.md R83). -/
def State.setRegs : State → List (Reg × Word) → State
  | s, [] => s
  | s, (r, v) :: ws => (s.setReg r v).setRegs ws

/-- A step has now been taken, so the host places no more strings (70_reset_and_hazards.md R222). -/
def State.markStarted (s : State) : State := { s with started := true }

/-- The end of an instruction of `len` bytes whose execute part writes `ws`: the writes, and then the pc advances
unless one of them was to register 18 (40_cycle.md R84). -/
def State.retire (s : State) (len : Nat) (ws : List (Reg × Word)) : State :=
  if ws.any (fun w => w.1 == Reg.pc) then (s.setRegs ws).markStarted
  else ((s.setRegs ws).setReg Reg.pc (wrap32 (s32 (s.reg Reg.pc) + len))).markStarted

/-! ### Runtime faults -/

/-- Taking a runtime fault (60_exceptions.md R203, 40_cycle.md R86): the cause and `cur` are recorded and the engine
stops; nothing else changes, so the pc keeps `cur`. There is no handler and no return (R204): only a new load clears
the record. -/
def State.raise (s : State) (c : Cause) : State :=
  State.markStarted { s with fault := some { cause := c, addr := s.reg Reg.pc }, active := false }

/-- The fault codes of 60_exceptions.md R201. -/
def Cause.code : Cause → Nat
  | .fetchRange => 1
  | .illegalOpcode => 2
  | .badRegister => 3
  | .divZero => 4
  | .memRange => 5

/-- The state an instruction leaves: its own, or the runtime fault `c` where a check of it failed. -/
def orRaise (s : State) (c : Cause) (t : Option State) : Host.Outcome State Fault Refusal :=
  match t with
  | some t => .next t
  | none => .next (s.raise c)

/-! ### Memory -/

/-- `M[a]`: the byte listed for `a`, or the unlisted one. -/
def cellsByte : List Host.Cell → Nat → Byte
  | [], _ => Config.unlistedByte
  | (k, b) :: t, a => if k = a then b else cellsByte t a

/-- `M[a] <- v` on the canonical list: a byte that equals the unlisted one is not listed. -/
def cellsSet : List Host.Cell → Nat → Byte → List Host.Cell
  | [], a, v => if v = Config.unlistedByte then [] else [(a, v)]
  | (k, b) :: t, a, v =>
    if a < k then
      if v = Config.unlistedByte then (k, b) :: t else (a, v) :: (k, b) :: t
    else if a = k then
      if v = Config.unlistedByte then t else (a, v) :: t
    else (k, b) :: cellsSet t a v

/-- The byte at an address (20_memory.md R45). -/
def Memory.byte (m : Memory) (a : Nat) : Byte := cellsByte m.cells a

/-- The memory with one byte written (R45). -/
def Memory.setByte (m : Memory) (a : Nat) (v : Byte) : Memory := { m with cells := cellsSet m.cells a v }

/-- The `n` bytes from `a` up (R45). -/
def Memory.bytes (m : Memory) (a : Nat) : Nat → List Byte
  | 0 => []
  | n + 1 => m.byte a :: m.bytes (a + 1) n

/-- The memory with the bytes of a list written from `a` up (R45). -/
def Memory.setBytes (m : Memory) (a : Nat) : List Byte → Memory
  | [] => m
  | b :: bs => (m.setByte a b).setBytes (a + 1) bs

/-- An access of `n` bytes at `a` is in range (R42), computed in ℤ. -/
abbrev Memory.inRange (m : Memory) (a : Int) (n : Nat) : Prop := 0 ≤ a ∧ a + n ≤ m.size

/-- `load_byte` (R45) with the range check R48. -/
def Memory.loadByte (m : Memory) (a : Int) : Option Byte :=
  if m.inRange a 1 then some (m.byte a.toNat) else none

/-- `load_halfword` (R46) with the range check R48. -/
def Memory.loadHalf (m : Memory) (a : Int) : Option Half :=
  if m.inRange a 2 then some (halfOfBytes (m.byte a.toNat) (m.byte (a.toNat + 1))) else none

/-- `load_word` (R47) with the range check R48. -/
def Memory.loadWord (m : Memory) (a : Int) : Option Word :=
  if m.inRange a 4 then
    some (wordOfBytes (m.byte a.toNat) (m.byte (a.toNat + 1)) (m.byte (a.toNat + 2)) (m.byte (a.toNat + 3)))
  else none

/-- `store_byte` (R45) with the range check R48. -/
def Memory.storeByte (m : Memory) (a : Int) (v : Byte) : Option Memory :=
  if m.inRange a 1 then some (m.setByte a.toNat v) else none

/-- `store_halfword` (R46) with the range check R48. -/
def Memory.storeHalf (m : Memory) (a : Int) (v : Half) : Option Memory :=
  if m.inRange a 2 then some (m.setBytes a.toNat (bytesOfHalf v)) else none

/-- `store_word` (R47) with the range check R48, made before any byte is written. -/
def Memory.storeWord (m : Memory) (a : Int) (v : Word) : Option Memory :=
  if m.inRange a 4 then some (m.setBytes a.toNat (bytesOfWord v)) else none

/-- `store_string` (R49): each character as a half-word, then a zero half-word. No opcode calls it; the host may
(70_reset_and_hazards.md R222). -/
def Memory.storeString (m : Memory) (a : Int) : List Half → Option Memory
  | [] => m.storeHalf a 0
  | c :: cs => (m.storeHalf a c).bind fun m' => m'.storeString (a + 2) cs

/-- The half-words from `a` up to the first zero one (44_console.md R156); `none` where one of them is out of range.
`fuel` bounds the half-words read. -/
def Memory.loadString (m : Memory) : Nat → Int → Option (List Half)
  | 0, _ => none
  | fuel + 1, a =>
    match m.loadHalf a with
    | none => none
    | some h => if h = 0 then some [] else (m.loadString fuel (a + 2)).map (h :: ·)

/-- The passes the loop of 44_console.md R156 can make in `m`: at most `MEM_SIZE/2 + 1`. -/
def Memory.stringFuel (m : Memory) : Nat := m.size / 2 + 1

/-! ### Output -/

/-- `ConsoleWrite(e)` of 44_console.md R151. -/
def State.emit (s : State) (e : Event) : State := { s with out := s.out ++ [e] }

end Sys2Proof.Machine
end

