-- ==== Sys2Proof/Machine/Operands.lean ====
section
/-! DEFINITION. How an instruction takes its operands: signed register values, and the one addressing mode
(43_memory_stack.md R135). -/

namespace Sys2Proof.Machine

/-- A register operand as the signed integer it holds (10_state.md R20). -/
def State.int (s : State) (r : Reg) : Int := s32 (s.reg r)

/-- The effective address of a memory operand: the register's value read as signed, with no displacement
(R135, 20_memory.md R42). -/
def State.address (s : State) (r : Reg) : Int := s.int r

/-- Where PUSH_STK stores: the first free word above the top of the stack (R135, R136). -/
def State.pushAddress (s : State) : Int := s.int Reg.sp

/-- Where POP_STK reads: the word below `sp`, computed in ℤ (R137). -/
def State.popAddress (s : State) : Int := s.int Reg.sp - 4

end Sys2Proof.Machine
end

