-- ==== Sys2Proof/Machine/Flags.lean ====
section
/-! DEFINITION. The engine has no flags (10_state.md R25): a comparison writes 0 or 1 into a register, and a branch
tests a register for nonzero. -/

namespace Sys2Proof.Machine

/-- The 0 or 1 a comparison writes (R25, 41_alu.md R100 to R102). -/
def truth (b : Bool) : Word := if b then 1 else 0

/-- The condition of BRANCH and BRANCH_LIT (42_control.md R121, R124). -/
def State.taken (s : State) (a : Reg) : Bool := s.reg a != 0

end Sys2Proof.Machine
end

