-- ==== Sys2Proof/Machine/Alu.lean ====
section
/-! DEFINITION. Arithmetic, logic, comparison and register moves (41_alu.md). Results are computed in ℤ and narrowed by
`wrap32` (R90); the operands are read before the destination is written (40_cycle.md R83). -/

namespace Sys2Proof.Machine

/-- The end of an R3 instruction that writes `v` to its destination. -/
def writeR3 (s : State) (c : Reg) (v : Word) : Host.Outcome State Fault Refusal := .next (s.retire 4 [(c, v)])

/-- The end of an R2 instruction that writes `v` to its destination. -/
def writeR2 (s : State) (b : Reg) (v : Word) : Host.Outcome State Fault Refusal := .next (s.retire 3 [(b, v)])

/-- ADD (R91). -/
def execAdd (a b c : Reg) (s : State) : Host.Outcome State Fault Refusal :=
  writeR3 s c (wrap32 (s.int a + s.int b))

/-- SUBT (R92). -/
def execSubt (a b c : Reg) (s : State) : Host.Outcome State Fault Refusal :=
  writeR3 s c (wrap32 (s.int a - s.int b))

/-- MULT (R93). -/
def execMult (a b c : Reg) (s : State) : Host.Outcome State Fault Refusal :=
  writeR3 s c (wrap32 (s.int a * s.int b))

/-- DIV (R94): the quotient truncated toward zero; a zero divisor raises DIV_ZERO. -/
def execDiv (a b c : Reg) (s : State) : Host.Outcome State Fault Refusal :=
  orRaise s .divZero
    (if s.int b = 0 then none else some (s.retire 4 [(c, wrap32 ((s.int a).tdiv (s.int b)))]))

/-- NEG (R95): the bitwise complement (90_conflicts.md C5). -/
def execNeg (a b : Reg) (s : State) : Host.Outcome State Fault Refusal :=
  writeR2 s b (~~~ s.reg a)

/-- AND (R96). -/
def execAnd (a b c : Reg) (s : State) : Host.Outcome State Fault Refusal :=
  writeR3 s c (s.reg a &&& s.reg b)

/-- OR (R97). -/
def execOr (a b c : Reg) (s : State) : Host.Outcome State Fault Refusal :=
  writeR3 s c (s.reg a ||| s.reg b)

/-- LSHIFT (R98): left by 1. -/
def execLshift (a b : Reg) (s : State) : Host.Outcome State Fault Refusal :=
  writeR2 s b ((s.reg a).extractLsb' 0 31 ++ 0#1)

/-- RSHIFT (R99): arithmetic right by 1, the sign bit copied. -/
def execRshift (a b : Reg) (s : State) : Host.Outcome State Fault Refusal :=
  writeR2 s b ((s.reg a).extractLsb' 31 1 ++ (s.reg a).extractLsb' 1 31)

/-- GT (R100): signed. -/
def execGt (a b c : Reg) (s : State) : Host.Outcome State Fault Refusal :=
  writeR3 s c (truth (s.int b < s.int a))

/-- LT (R101): signed. -/
def execLt (a b c : Reg) (s : State) : Host.Outcome State Fault Refusal :=
  writeR3 s c (truth (s.int a < s.int b))

/-- EQ (R102). -/
def execEq (a b c : Reg) (s : State) : Host.Outcome State Fault Refusal :=
  writeR3 s c (truth (s.reg a = s.reg b))

/-- COPY (R103). -/
def execCopy (a b : Reg) (s : State) : Host.Outcome State Fault Refusal :=
  writeR2 s b (s.reg a)

/-- LOAD_LIT (R104): into `rs`. -/
def execLoadLit (lit : Word) (s : State) : Host.Outcome State Fault Refusal :=
  .next (s.retire 5 [(Reg.rs, lit)])

/-- SET (R105). -/
def execSet (a : Reg) (lit : Word) (s : State) : Host.Outcome State Fault Refusal :=
  .next (s.retire 6 [(a, lit)])

end Sys2Proof.Machine
end

