-- ==== Sys2Proof/Machine/Console.lean ====
section
/-! DEFINITION. Console input and output (44_console.md). -/

namespace Sys2Proof

/-- FREE VALUE. How an output event is rendered as text: the parameter `render` that R151 leaves OPEN
(assumption log, entry 6). -/
opaque Config.render : Machine.Event → String

namespace Machine

/-- INPUT (R152): the next integer the console supplies goes to `rs`; with none supplied the step has no transition
(R150). -/
def execInput (s : State) : Host.Outcome State Fault Refusal :=
  match s.inInts with
  | [] => .fault .consoleBlocked
  | v :: vs => .next (State.retire { s with inInts := vs } 1 [(Reg.rs, v)])

/-- INPUT_CHAR (R153): the next character code, zero-extended, goes to `rs`. -/
def execInputChar (s : State) : Host.Outcome State Fault Refusal :=
  match s.inChars with
  | [] => .fault .consoleBlocked
  | c :: cs => .next (State.retire { s with inChars := cs } 1 [(Reg.rs, c.setWidth 32)])

/-- OUTPUT (R154). -/
def execOutput (a : Reg) (s : State) : Host.Outcome State Fault Refusal :=
  .next ((s.emit (.outInt (s.reg a))).retire 2 [])

/-- OUTPUT_CHAR (R155): the low 16 bits. -/
def execOutputChar (a : Reg) (s : State) : Host.Outcome State Fault Refusal :=
  .next ((s.emit (.outChar ((s.reg a).extractLsb' 0 16))).retire 2 [])

/-- OUTPUT_STR (R156): the whole string is read before anything is emitted. -/
def execOutputStr (a : Reg) (s : State) : Host.Outcome State Fault Refusal :=
  orRaise s .memRange
    ((s.mem.loadString s.mem.stringFuel (s.address a)).map fun str => (s.emit (.outStr str)).retire 2 [])

/-- The bytes CORE_DUMP prints (R157): none, with no address checked, for a count of 0 or less; else the whole range is
checked first. -/
def State.dumpBytes (s : State) (a : Int) (n : Int) : Option (List Byte) :=
  if n ≤ 0 then some []
  else if 0 ≤ a ∧ a + n ≤ s.mem.size then some (s.mem.bytes a.toNat n.toNat)
  else none

/-- CORE_DUMP (R157). -/
def execCoreDump (a b : Reg) (s : State) : Host.Outcome State Fault Refusal :=
  orRaise s .memRange
    ((s.dumpBytes (s.address a) (s.int b)).map fun bs => (s.emit (.outDump (s.reg a) bs)).retire 3 [])

/-- The output as text: each event under the parameter `render` (R151). -/
def State.outputText (s : State) : List String := s.out.map Config.render

end Machine

end Sys2Proof
end

