-- ==== Sys2Proof/Machine/Control.lean ====
section
/-! DEFINITION. Control transfer, NOP and HALT (42_control.md). A target is an absolute address and is not checked
until the next fetch (40_cycle.md R84). -/

namespace Sys2Proof.Machine

/-- `if taken: pc <- target`, at the end of an instruction of `len` bytes (R121, R124; 90_conflicts.md C13). -/
def branchTo (s : State) (len : Nat) (taken : Bool) (target : Word) : Host.Outcome State Fault Refusal :=
  .next (s.retire len (if taken then [(Reg.pc, target)] else []))

/-- NOP (R120). -/
def execNop (s : State) : Host.Outcome State Fault Refusal := .next (s.retire 1 [])

/-- BRANCH (R121). -/
def execBranch (a b : Reg) (s : State) : Host.Outcome State Fault Refusal :=
  branchTo s 3 (s.taken a) (s.reg b)

/-- JUMP (R122). -/
def execJump (a : Reg) (s : State) : Host.Outcome State Fault Refusal := branchTo s 2 true (s.reg a)

/-- JUMP_LIT (R123). -/
def execJumpLit (lit : Word) (s : State) : Host.Outcome State Fault Refusal := branchTo s 5 true lit

/-- JUMP_LABEL (R123): the same instruction under its second spelling. -/
def execJumpLabel (lit : Word) (s : State) : Host.Outcome State Fault Refusal := branchTo s 5 true lit

/-- BRANCH_LIT (R124). -/
def execBranchLit (a : Reg) (lit : Word) (s : State) : Host.Outcome State Fault Refusal :=
  branchTo s 6 (s.taken a) lit

/-- HALT (R125): the active flag is cleared and the pc advances by 1. -/
def execHalt (s : State) : Host.Outcome State Fault Refusal :=
  .next { s.retire 1 [] with active := false }

end Sys2Proof.Machine
end

