-- ==== Sys2Proof/Machine/MemoryStack.lean ====
section
/-! DEFINITION. Stack, loads and stores (43_memory_stack.md). An access out of range raises MEM_RANGE and nothing is
written (20_memory.md R48). -/

namespace Sys2Proof.Machine

/-- PUSH_STK (R136): store at `sp`, then advance `sp` by 4; `$sp` pushes the old `sp`. -/
def execPushStk (a : Reg) (s : State) : Host.Outcome State Fault Refusal :=
  orRaise s .memRange
    ((s.mem.storeWord s.pushAddress (s.reg a)).map fun m =>
      State.retire { s with mem := m } 2 [(Reg.sp, wrap32 (s.pushAddress + 4))])

/-- POP_STK (R137): retreat `sp` by 4 and load there; `x[A]` is written after `sp`. -/
def execPopStk (a : Reg) (s : State) : Host.Outcome State Fault Refusal :=
  orRaise s .memRange
    ((s.mem.loadWord s.popAddress).map fun v => s.retire 2 [(Reg.sp, wrap32 s.popAddress), (a, v)])

/-- LOAD (R138). -/
def execLoad (a b : Reg) (s : State) : Host.Outcome State Fault Refusal :=
  orRaise s .memRange ((s.mem.loadWord (s.address a)).map fun v => s.retire 3 [(b, v)])

/-- LOAD_BYTE (R139): zero-extended. -/
def execLoadByte (a b : Reg) (s : State) : Host.Outcome State Fault Refusal :=
  orRaise s .memRange ((s.mem.loadByte (s.address a)).map fun v => s.retire 3 [(b, v.setWidth 32)])

/-- STORE (R140). -/
def execStore (a b : Reg) (s : State) : Host.Outcome State Fault Refusal :=
  orRaise s .memRange
    ((s.mem.storeWord (s.address a) (s.reg b)).map fun m => State.retire { s with mem := m } 3 [])

/-- STORE_BYTE (R141): the low 8 bits. -/
def execStoreByte (a b : Reg) (s : State) : Host.Outcome State Fault Refusal :=
  orRaise s .memRange
    ((s.mem.storeByte (s.address a) ((s.reg b).extractLsb' 0 8)).map fun m => State.retire { s with mem := m } 3 [])

end Sys2Proof.Machine
end

