-- ==== Sys2Proof/Machine/Dispatch.lean ====
section
/-! DEFINITION. The execute part of each instruction (40_cycle.md R83): one arm for each constructor. -/

namespace Sys2Proof.Machine

def exec (i : Instr) (s : State) : Host.Outcome State Fault Refusal :=
  match i with
  | .nop => Sys2Proof.Machine.execNop s
  | .input => Sys2Proof.Machine.execInput s
  | .inputChar => Sys2Proof.Machine.execInputChar s
  | .add a b c => Sys2Proof.Machine.execAdd a b c s
  | .subt a b c => Sys2Proof.Machine.execSubt a b c s
  | .mult a b c => Sys2Proof.Machine.execMult a b c s
  | .div a b c => Sys2Proof.Machine.execDiv a b c s
  | .neg a b => Sys2Proof.Machine.execNeg a b s
  | .and a b c => Sys2Proof.Machine.execAnd a b c s
  | .or a b c => Sys2Proof.Machine.execOr a b c s
  | .lshift a b => Sys2Proof.Machine.execLshift a b s
  | .rshift a b => Sys2Proof.Machine.execRshift a b s
  | .gt a b c => Sys2Proof.Machine.execGt a b c s
  | .lt a b c => Sys2Proof.Machine.execLt a b c s
  | .eq a b c => Sys2Proof.Machine.execEq a b c s
  | .branch a b => Sys2Proof.Machine.execBranch a b s
  | .jump a => Sys2Proof.Machine.execJump a s
  | .copy a b => Sys2Proof.Machine.execCopy a b s
  | .output a => Sys2Proof.Machine.execOutput a s
  | .outputChar a => Sys2Proof.Machine.execOutputChar a s
  | .pushStk a => Sys2Proof.Machine.execPushStk a s
  | .popStk a => Sys2Proof.Machine.execPopStk a s
  | .load a b => Sys2Proof.Machine.execLoad a b s
  | .loadByte a b => Sys2Proof.Machine.execLoadByte a b s
  | .store a b => Sys2Proof.Machine.execStore a b s
  | .storeByte a b => Sys2Proof.Machine.execStoreByte a b s
  | .outputStr a => Sys2Proof.Machine.execOutputStr a s
  | .coreDump a b => Sys2Proof.Machine.execCoreDump a b s
  | .loadLit lit => Sys2Proof.Machine.execLoadLit lit s
  | .jumpLit lit => Sys2Proof.Machine.execJumpLit lit s
  | .jumpLabel lit => Sys2Proof.Machine.execJumpLabel lit s
  | .branchLit a lit => Sys2Proof.Machine.execBranchLit a lit s
  | .set a lit => Sys2Proof.Machine.execSet a lit s
  | .halt => Sys2Proof.Machine.execHalt s

end Sys2Proof.Machine
end

