-- ==== Sys2Proof/Machine/Fetch.lean ====
section
/-! DEFINITION. Fetching and decoding at an address of memory (30_encoding.md R71, 40_cycle.md R81, R82). -/

namespace Sys2Proof.Machine

/-- The runtime fault a decoding error is (60_exceptions.md R201). -/
def causeOf : DecodeError → Cause
  | .truncated => .fetchRange
  | .illegalOpcode => .illegalOpcode
  | .badRegister => .badRegister

/-- The bytes an instruction at `a` can have: six, or as many as there are before the end of memory (R82). Reading a
byte changes nothing (20_memory.md R53), so the bytes after a shorter instruction are read without effect (DEDUCED,
assumption log, entry 12). -/
def Memory.fetchWindow (m : Memory) (a : Nat) : List Byte := m.bytes a (min 6 (m.size - a))

/-- The decoder of R71 on a memory and an address. -/
def Memory.decodeAt (m : Memory) (a : Int) : Except Cause Instr :=
  if 0 ≤ a ∧ a < m.size then
    match decode (m.fetchWindow a.toNat) with
    | .ok (i, _) => .ok i
    | .error e => .error (causeOf e)
  else .error .fetchRange

/-- What the engine is about to run: the instruction at the pc, or the fault its fetch raises (R81, R82). -/
def State.fetch (s : State) : Except Cause Instr := s.mem.decodeAt (s32 (s.reg Reg.pc))

/-- A step is enabled (40_cycle.md R80). -/
def State.enabled (s : State) : Bool := s.active && s.fault.isNone

end Sys2Proof.Machine
end

