-- ==== Sys2Proof/Machine/Step.lean ====
section
/-! DEFINITION. One fetch-decode-execute cycle (40_cycle.md R87), and a program word placed where the next step fetches
it. -/

namespace Sys2Proof.Machine

/-- One step (R87). A state with the fault record set is faulted and one that is inactive without it is halted: neither
has a step (R80). A fault of the fetch is taken like any other (R86). -/
def step (s : State) : Host.Outcome State Fault Refusal :=
  if s.fault.isSome then .fault .faulted
  else if s.active = false then .fault .halted
  else
    match s.fetch with
    | .error c => .next (s.raise c)
    | .ok i => exec i s

/-- `s` with an instruction of spec/opcode_table.json, its bits numbered as there, in the bytes the next step fetches:
six bytes from the pc, or those of them that lie in memory. It stands for the host's load of a program (assumption log,
entry 5). -/
def State.withFetchWord (s : State) (nbits w : Nat) : State :=
  let a := (s.reg Reg.pc).toNat
  { s with mem := s.mem.setBytes a ((tableBytes nbits w).take (s.mem.size - a)) }

end Sys2Proof.Machine
end

