-- ==== Sys2Proof/Machine/Tokenizer.lean ====
section
/-! DEFINITION. The assembler's mnemonics (45_assembler.md R177) and its tokenizer, a finite-state machine over one line
(R167 to R176). Text is a list of characters. -/

namespace Sys2Proof.Machine

/-! ### Mnemonics and registers -/

/-- The 34 spellings of R177, each with its row of the opcode map. JUMP_LABEL is the second spelling of JUMP_LIT. -/
def mnemonicTable : List (List Char × Shape) :=
  [("NOP".toList, .n .nop), ("INPUT".toList, .n .input), ("INPUT_CHAR".toList, .n .inputChar),
   ("ADD".toList, .r3 .add), ("SUBT".toList, .r3 .subt), ("MULT".toList, .r3 .mult), ("DIV".toList, .r3 .div),
   ("NEG".toList, .r2 .neg), ("AND".toList, .r3 .and), ("OR".toList, .r3 .or)] ++
  [("LSHIFT".toList, .r2 .lshift), ("RSHIFT".toList, .r2 .rshift), ("GT".toList, .r3 .gt), ("LT".toList, .r3 .lt),
   ("EQ".toList, .r3 .eq), ("BRANCH".toList, .r2 .branch), ("JUMP".toList, .r1 .jump), ("COPY".toList, .r2 .copy),
   ("OUTPUT".toList, .r1 .output), ("OUTPUT_CHAR".toList, .r1 .outputChar)] ++
  [("PUSH_STK".toList, .r1 .pushStk), ("POP_STK".toList, .r1 .popStk), ("LOAD".toList, .r2 .load),
   ("LOAD_BYTE".toList, .r2 .loadByte), ("STORE".toList, .r2 .store), ("STORE_BYTE".toList, .r2 .storeByte),
   ("OUTPUT_STR".toList, .r1 .outputStr), ("CORE_DUMP".toList, .r2 .coreDump)] ++
  [("LOAD_LIT".toList, .l .loadLit), ("JUMP_LIT".toList, .l .jumpLit), ("JUMP_LABEL".toList, .l .jumpLabel),
   ("BRANCH_LIT".toList, .rl .branchLit), ("SET".toList, .rl .set), ("HALT".toList, .n .halt)]

/-- The row a mnemonic names; the text is upper-cased already. -/
def shapeOfMnemonic (text : List Char) : Option Shape :=
  (mnemonicTable.find? fun row => row.1 == text).map fun row => row.2

/-- Mnemonics, register names and labels are case-insensitive (R167); only ASCII letters have a case (R165; DESIGN
CHOICE for other characters, assumption log, entry 9). -/
def upper (text : List Char) : List Char := text.map Char.toUpper

/-- The value of a string of decimal digits (R170). -/
def natOfDigits (text : List Char) : Nat := text.foldl (fun n c => 10 * n + (c.toNat - '0'.toNat)) 0

/-- A non-empty string of decimal digits. -/
def isDigits (text : List Char) : Bool := !text.isEmpty && text.all Char.isDigit

/-- The register a register token's text names: RA, SP, PC, RS, or a decimal number from 0 to 15 (R173, R176). -/
def regOfText (text : List Char) : Option Reg :=
  if text = "RA".toList then some Reg.ra
  else if text = "SP".toList then some Reg.sp
  else if text = "PC".toList then some Reg.pc
  else if text = "RS".toList then some Reg.rs
  else if isDigits text && natOfDigits text < 16 then some (Fin.ofNat 20 (natOfDigits text))
  else none

/-! ### Tokens -/

/-- The kinds of a token (R168). -/
inductive TokenKind where
  | label | identifier | command | register | number | string
deriving DecidableEq, Repr

/-- A token (R168). The text of every kind but a string is upper-cased (R167). -/
structure Token where
  kind : TokenKind
  text : List Char
deriving DecidableEq, Repr

/-- A Label token. -/
def Token.ofLabel (text : List Char) : Token := { kind := .label, text := upper text }

/-- An Identifier token, a Command where its text is a known mnemonic (R168). -/
def Token.ofWord (text : List Char) : Token :=
  { kind := if (shapeOfMnemonic (upper text)).isSome then .command else .identifier, text := upper text }

/-- A Number token. -/
def Token.ofNumber (text : List Char) : Token := { kind := .number, text := text }

/-- A String token: not upper-cased (R172). -/
def Token.ofString (text : List Char) : Token := { kind := .string, text := text }

/-- A Register token, where the text after the `$` is valid (R173). -/
def Token.ofRegister (text : List Char) : Option Token :=
  if (regOfText (upper text)).isSome then some { kind := .register, text := upper text } else none

/-! ### The finite-state machine -/

/-- The states of R169, each with the text it has accumulated; Register also keeps the column of its `$`. -/
inductive TokState where
  | start
  | negativeNumber
  | number (text : List Char)
  | labelOrIdentifier (text : List Char)
  | register (text : List Char) (column : Nat)
  | inString (text : List Char)
  | escape (text : List Char)
deriving DecidableEq, Repr

/-- What a character does: the next state and what it emits, the end of the line's tokens, or a ParseError with its
column. -/
inductive TokMove where
  | go (st : TokState) (emitted : List Token)
  | stop (emitted : List Token)
  | bad (column : Nat)
deriving DecidableEq, Repr

/-- The transitions from Start (R169); a `:` there would end an empty label (R171). What is whitespace is a DESIGN
CHOICE (assumption log, entry 8). -/
def nextFromStart (col : Nat) (ch : Char) : TokMove :=
  if ch.isWhitespace then .go .start []
  else if ch = '#' then .stop []
  else if ch = '"' then .go (.inString []) []
  else if ch.isDigit then .go (.number [ch]) []
  else if ch = '-' then .go .negativeNumber []
  else if ch = '$' then .go (.register [] col) []
  else if ch = ':' then .bad col
  else .go (.labelOrIdentifier [ch]) []

/-- The character an escape stands for (R172). -/
def escaped (ch : Char) : Char :=
  if ch = 'n' then Char.ofNat 10 else if ch = 't' then Char.ofNat 9 else ch

/-- The move on a validated register text, or the ParseError at its `$` (R173). -/
def registerMove (text : List Char) (column : Nat) (k : List Token → TokMove) : TokMove :=
  match Token.ofRegister text with
  | some t => k [t]
  | none => .bad column

/-- The transition on the character `ch` at column `col` (R169 to R173). -/
def TokState.next (st : TokState) (col : Nat) (ch : Char) : TokMove :=
  match st with
  | .start => nextFromStart col ch
  | .negativeNumber => if ch.isDigit then .go (.number ['-', ch]) [] else .bad col
  | .number text =>
    if ch.isDigit then .go (.number (text ++ [ch])) []
    else if ch.isWhitespace then .go .start [Token.ofNumber text]
    else if ch = '#' then .stop [Token.ofNumber text]
    else .bad col
  | .labelOrIdentifier text =>
    if ch = ':' then .go .start [Token.ofLabel text]
    else if ch.isWhitespace then .go .start [Token.ofWord text]
    else if ch = '#' then .stop [Token.ofWord text]
    else if ch = '"' ∨ ch = '-' then .bad col
    else .go (.labelOrIdentifier (text ++ [ch])) []
  | .register text column =>
    if ch.isWhitespace then registerMove text column (.go .start)
    else if ch = '#' then registerMove text column .stop
    else .go (.register (text ++ [ch]) column) []
  | .inString text =>
    if ch = '\\' then .go (.escape text) []
    else if ch = '"' then .go .start [Token.ofString text]
    else .go (.inString (text ++ [ch])) []
  | .escape text => .go (.inString (text ++ [escaped ch])) []

/-- The end of the line (R174): a pending token is flushed; a pending sign, string or escape is a ParseError
(R170, R172). -/
def TokState.flush (st : TokState) (endCol : Nat) : Except Nat (List Token) :=
  match st with
  | .start => .ok []
  | .negativeNumber => .error endCol
  | .number text => .ok [Token.ofNumber text]
  | .labelOrIdentifier text => .ok [Token.ofWord text]
  | .register text column =>
    match Token.ofRegister text with
    | some t => .ok [t]
    | none => .error column
  | .inString _ => .error endCol
  | .escape _ => .error endCol

/-- The tokens of the rest of a line from a state at column `col`, or the column of the first ParseError. -/
def tokensFrom (endCol : Nat) : TokState → Nat → List Char → Except Nat (List Token)
  | st, _, [] => st.flush endCol
  | st, col, ch :: rest =>
    match st.next col ch with
    | .bad c => .error c
    | .stop emitted => .ok emitted
    | .go st' emitted =>
      match tokensFrom endCol st' (col + 1) rest with
      | .error c => .error c
      | .ok ts => .ok (emitted ++ ts)

/-- The tokens of one line, columns from 1 (R168, R169, R185). -/
def tokenize (line : List Char) : Except Nat (List Token) :=
  tokensFrom (Config.endOfLineColumn line) .start 1 line

end Sys2Proof.Machine
end

