-- ==== Sys2Proof/Machine/Assembler.lean ====
section
/-! DEFINITION. The two-pass assembler (45_assembler.md R165, R166, R177 to R186): source text to the byte-code image,
or an error and no image. -/

namespace Sys2Proof.Machine

/-! ### Errors -/

/-- Why an UnknownArgumentError is raised (R185). -/
inductive UnknownArgument where
  | unresolvableLabel | unrecognizedMnemonic | operandMismatch | duplicateLabel
deriving DecidableEq, Repr

/-- The assembly errors of R185, each with the physical source line, from 1 (R165). -/
inductive AsmError where
  | parse (line column : Nat)
  | unknownArgument (line : Nat) (why : UnknownArgument)
deriving DecidableEq, Repr

/-! ### Source lines -/

/-- The physical lines of a text, each ended by a newline character (DESIGN CHOICE, assumption log, entry 8). -/
def splitLines : List Char → List (List Char)
  | [] => [[]]
  | c :: cs =>
    match splitLines cs with
    | [] => [[c]]
    | l :: ls => if c = '\n' then [] :: l :: ls else (c :: l) :: ls

/-- Blank lines and comment lines are ignored (R165). -/
def ignoredLine (line : List Char) : Bool :=
  match line.dropWhile Char.isWhitespace with
  | [] => true
  | c :: _ => c == '#'

/-- A line of the program: its physical number and its text. -/
structure SourceLine where
  number : Nat
  text : List Char
deriving DecidableEq, Repr

/-- Number lines from `n`. -/
def numberLines : Nat → List (List Char) → List SourceLine
  | _, [] => []
  | n, l :: ls => { number := n, text := l } :: numberLines (n + 1) ls

/-- The sequence of non-blank, non-comment lines; a line's index is its place in it (R165). -/
def sourceLines (src : List Char) : List SourceLine :=
  (numberLines 1 (splitLines src)).filter fun l => !ignoredLine l.text

/-! ### One line -/

/-- The leading run of labels, and the tokens after it (R166, R179). -/
def splitLabels : List Token → List (List Char) × List Token
  | [] => ([], [])
  | t :: ts => if t.kind = .label then (t.text :: (splitLabels ts).1, (splitLabels ts).2) else ([], t :: ts)

/-- What a line's tokens after its labels say: an instruction, or one that lacks only its literal. -/
inductive Body where
  | complete (i : Instr)
  | lacking (f : Word → Instr) (lit : Token)

/-- The register of a Register token (R176). -/
def Token.reg (t : Token) : Option Reg := if t.kind = .register then regOfText t.text else none

/-- A token that may stand for a literal: a Number, or a word that may name a label (R178). -/
def Token.isLiteral (t : Token) : Bool := t.kind = .number || t.kind = .identifier || t.kind = .command

/-- The operand tokens of a row's format (R178); `none` is an arity or kind mismatch. -/
def bodyOfOperands : Shape → List Token → Option Body
  | .n i, [] => some (.complete i)
  | .r1 f, [a] => a.reg.map fun ra => .complete (f ra)
  | .r2 f, [a, b] => a.reg.bind fun ra => b.reg.map fun rb => .complete (f ra rb)
  | .r3 f, [a, b, c] =>
    a.reg.bind fun ra => b.reg.bind fun rb => c.reg.map fun rc => .complete (f ra rb rc)
  | .l f, [t] => if t.isLiteral then some (.lacking f t) else none
  | .rl f, [a, t] => a.reg.bind fun ra => if t.isLiteral then some (.lacking (f ra) t) else none
  | _, _ => none

/-- The tokens after the labels as an instruction (R177, R178); a label-only line is NOP. -/
def bodyOfTokens : List Token → Except UnknownArgument Body
  | [] => .ok (.complete .nop)
  | t :: ts =>
    if t.kind = .command then
      match shapeOfMnemonic t.text with
      | none => .error .unrecognizedMnemonic
      | some sh =>
        match bodyOfOperands sh ts with
        | none => .error .operandMismatch
        | some b => .ok b
    else .error .unrecognizedMnemonic

/-! ### Pass 1 -/

/-- The Label Table: upper-cased names with the index of their line (R167, R179). -/
abbrev LabelTable := List (List Char × Nat)

/-- The line index of a label. -/
def LabelTable.find (t : LabelTable) (name : List Char) : Option Nat :=
  (List.find? (fun e => e.1 == name) t).map fun e => e.2

/-- A line's labels recorded; none if one is defined already (R179). -/
def addLabels (index : Nat) : LabelTable → List (List Char) → Option LabelTable
  | t, [] => some t
  | t, name :: names => if (t.find name).isSome then none else addLabels index (t ++ [(name, index)]) names

/-- Pass 1 over the lines from `index` (R179): tokenize, record labels, check the shape; the first error in line order
ends it. -/
def passOne : Nat → LabelTable → List SourceLine → Except AsmError LabelTable
  | _, t, [] => .ok t
  | index, t, l :: ls =>
    match tokenize l.text with
    | .error c => .error (.parse l.number c)
    | .ok toks =>
      match addLabels index t (splitLabels toks).1 with
      | none => .error (.unknownArgument l.number .duplicateLabel)
      | some t' =>
        match bodyOfTokens (splitLabels toks).2 with
        | .error why => .error (.unknownArgument l.number why)
        | .ok _ => passOne (index + 1) t' ls

/-! ### Pass 2 -/

/-- An instruction line: complete, or flagged for the patch with the line index of its label in place of the literal
(R180). -/
inductive InstrLine where
  | done (i : Instr)
  | flagged (f : Word → Instr) (index : Nat)

/-- The line's instruction before the patch: a flagged literal still holds the line index (R180). -/
def InstrLine.provisional : InstrLine → Instr
  | .done i => i
  | .flagged f index => f (wrap32 index)

/-- The signed value of a Number token's text (R170). -/
def intOfText : List Char → Int
  | '-' :: digits => -(natOfDigits digits : Int)
  | digits => natOfDigits digits

/-- A Number token in the i32 range (R180). -/
def Token.number (t : Token) : Option Word :=
  if t.kind = .number ∧ -(2 ^ 31) ≤ intOfText t.text ∧ intOfText t.text < 2 ^ 31 then
    some (wrap32 (intOfText t.text))
  else none

/-- A literal operand resolved: a number, else a label, else `none` (R180). -/
def resolveBody (t : LabelTable) : Body → Option InstrLine
  | .complete i => some (.done i)
  | .lacking f tok =>
    match tok.number with
    | some v => some (.done (f v))
    | none => (t.find tok.text).map fun index => .flagged f index

/-- Pass 2 (R181): each line tokenized again, its labels stripped, encoded into an instruction line. -/
def passTwo (t : LabelTable) : List SourceLine → Except AsmError (List InstrLine)
  | [] => .ok []
  | l :: ls =>
    match tokenize l.text with
    | .error c => .error (.parse l.number c)
    | .ok toks =>
      match bodyOfTokens (splitLabels toks).2 with
      | .error why => .error (.unknownArgument l.number why)
      | .ok b =>
        match resolveBody t b with
        | none => .error (.unknownArgument l.number .unresolvableLabel)
        | some il =>
          match passTwo t ls with
          | .error e => .error e
          | .ok ils => .ok (il :: ils)

/-! ### Offsets, patch, image -/

/-- `offset` of R182: the bytes of the lines before a line index. -/
def lineOffset (ils : List InstrLine) (index : Nat) : Nat :=
  ((ils.take index).map fun il => il.provisional.length).sum

/-- The patch of R183: a flagged literal becomes its line's byte offset; one that no 32-bit literal holds is wrapped
(DESIGN CHOICE, assumption log, entry 10). -/
def patchLine (ils : List InstrLine) : InstrLine → Instr
  | .done i => i
  | .flagged f index => f (wrap32 (lineOffset ils index))

/-- The instructions of a program after the patch (R181 to R183). -/
def assembleInstrs (src : List Char) : Except AsmError (List Instr) :=
  match passOne 0 [] (sourceLines src) with
  | .error e => .error e
  | .ok t =>
    match passTwo t (sourceLines src) with
    | .error e => .error e
    | .ok ils => .ok (ils.map (patchLine ils))

/-- The image of a source text (R184), or the error that aborts assembly (R185). -/
def assemble (src : List Char) : Except AsmError (List Byte) :=
  match assembleInstrs src with
  | .error e => .error e
  | .ok is => .ok (encodeAll is)

end Sys2Proof.Machine
end

