-- ==== Sys2Proof/Machine/Printer.lean ====
section
/-! DEFINITION. The canonical printed spelling of an instruction (30_encoding.md R73). -/

namespace Sys2Proof.Machine

/-- The opcode table's mnemonic; 0x1E prints as JUMP_LIT (R73). -/
def mnemonicText : Instr → List Char
  | .nop => "NOP".toList
  | .input => "INPUT".toList
  | .inputChar => "INPUT_CHAR".toList
  | .add _ _ _ => "ADD".toList
  | .subt _ _ _ => "SUBT".toList
  | .mult _ _ _ => "MULT".toList
  | .div _ _ _ => "DIV".toList
  | .neg _ _ => "NEG".toList
  | .and _ _ _ => "AND".toList
  | .or _ _ _ => "OR".toList
  | .lshift _ _ => "LSHIFT".toList
  | .rshift _ _ => "RSHIFT".toList
  | .gt _ _ _ => "GT".toList
  | .lt _ _ _ => "LT".toList
  | .eq _ _ _ => "EQ".toList
  | .branch _ _ => "BRANCH".toList
  | .jump _ => "JUMP".toList
  | .copy _ _ => "COPY".toList
  | .output _ => "OUTPUT".toList
  | .outputChar _ => "OUTPUT_CHAR".toList
  | .pushStk _ => "PUSH_STK".toList
  | .popStk _ => "POP_STK".toList
  | .load _ _ => "LOAD".toList
  | .loadByte _ _ => "LOAD_BYTE".toList
  | .store _ _ => "STORE".toList
  | .storeByte _ _ => "STORE_BYTE".toList
  | .outputStr _ => "OUTPUT_STR".toList
  | .coreDump _ _ => "CORE_DUMP".toList
  | .loadLit _ => "LOAD_LIT".toList
  | .jumpLit _ => "JUMP_LIT".toList
  | .jumpLabel _ => "JUMP_LIT".toList
  | .branchLit _ _ => "BRANCH_LIT".toList
  | .set _ _ => "SET".toList
  | .halt => "HALT".toList

/-- A signed decimal integer (R73). -/
def printInt (n : Int) : List Char :=
  if n < 0 then '-' :: Nat.toDigits 10 n.natAbs else Nat.toDigits 10 n.natAbs

/-- A register's printed name: `$0` to `$15`, `$RA`, `$SP`, `$PC`, `$RS` (R73). -/
def printReg (r : Reg) : List Char :=
  '$' ::
    (if r = Reg.ra then "RA".toList
    else if r = Reg.sp then "SP".toList
    else if r = Reg.pc then "PC".toList
    else if r = Reg.rs then "RS".toList
    else Nat.toDigits 10 r.val)

/-- The printed instruction: mnemonic and operands, in encoding order, separated by single spaces (R73). -/
def printInstr (i : Instr) : List Char :=
  mnemonicText i ++
    (i.operands.1.flatMap fun r => ' ' :: printReg r) ++
    (match i.operands.2 with
    | some w => ' ' :: printInt (s32 w)
    | none => [])

end Sys2Proof.Machine
end

