-- ==== Sys2Proof/Machine/Loader.lean ====
section
/-! DEFINITION. What the host can do to the engine besides stepping it (70_reset_and_hazards.md R220 to R222). -/

namespace Sys2Proof.Machine

/-- `load(image)` into a memory of `memSize` bytes (R220, R221): the reset values with the image at the load base, or a
refusal of an image that does not fit. -/
def State.load (memSize : Nat) (image : List Byte) : Option State :=
  if memSizeWellFormed memSize && imageFits memSize image then
    some { State.reset with
      mem := Memory.setBytes { size := memSize, cells := [] } Config.loadBase image }
  else none

/-- The engine is blocked in INPUT (40_cycle.md R89). -/
def State.awaitsInt (s : State) : Bool :=
  s.enabled && s.inInts.isEmpty &&
    match s.fetch with
    | .ok .input => true
    | _ => false

/-- The engine is blocked in INPUT_CHAR (R89). -/
def State.awaitsChar (s : State) : Bool :=
  s.enabled && s.inChars.isEmpty &&
    match s.fetch with
    | .ok .inputChar => true
    | _ => false

/-- The host supplies an integer, which it does only while the engine is blocked on one (R222). -/
def State.supplyInt (s : State) (v : Word) : Option State :=
  if s.awaitsInt then some { s with inInts := [v] } else none

/-- The host supplies a character code, only while the engine is blocked on one (R222). -/
def State.supplyChar (s : State) (c : Half) : Option State :=
  if s.awaitsChar then some { s with inChars := [c] } else none

/-- The host places a string for OUTPUT_STR, which it does only between load and the first step (R222; 20_memory.md
R49). A string that does not fit is refused (DESIGN CHOICE, assumption log, entry 11). -/
def State.placeString (s : State) (a : Int) (text : List Half) : Option State :=
  if s.started then none else (s.mem.storeString a text).map fun m => { s with mem := m }

end Sys2Proof.Machine
end

