-- ==== Sys2Proof/Machine/Run.lean ====
section
/-! DEFINITION. A run: the engine stepped again and again, the console answering the reads it blocks in
(70_reset_and_hazards.md R222, R223). That it goes by moments is DEDUCED (assumption log, entry 14). -/

namespace Sys2Proof.Machine

/-- What the console does during one run (44_console.md R150): at each moment, the integer or the character code it has
for a read blocked then, if any. Nothing constrains it. -/
structure Console where
  int : Nat → Option Word
  char : Nat → Option Half

/-- The host passes on what the console has at the moment `n` for the read `s` is blocked in (R222). -/
def State.supply (s : State) (c : Console) (n : Nat) : Option State :=
  if s.awaitsInt then (c.int n).bind s.supplyInt else (c.char n).bind s.supplyChar

/-- One moment of a run: the next state of the step; for a step with no transition, a blocked read is answered if the
console has a value, and otherwise nothing happens. -/
def State.tick (s : State) (c : Console) (n : Nat) : State :=
  match step s with
  | .next t => t
  | .fault _ => (s.supply c n).getD s
  | .refused _ => s

/-- The state of the run from `s` at the moment `n` (R223). -/
def State.run (s : State) (c : Console) : Nat → State
  | 0 => s
  | n + 1 => (s.run c n).tick c n

end Sys2Proof.Machine
end

