-- ==== Sys2Proof/Safety.lean ====
section
/-! DEFINITION. The terms statements are made in: how a run stands, the invariant of the machine, what an instruction
may write, and what two states share. -/

namespace Sys2Proof.Machine

/-! ### How a run stands -/

/-- Where a run is (70_reset_and_hazards.md R223). -/
inductive Status where
  | running
  | halted
  | faulted (f : FaultRecord)
  | blocked
deriving DecidableEq, Repr

/-- The status of a state: faulted and halted by the record and the flag, blocked in a console read with nothing
supplied, else running (R223). -/
def State.status (s : State) : Status :=
  match s.fault with
  | some f => .faulted f
  | none => if s.active then (if s.awaitsInt || s.awaitsChar then .blocked else .running) else .halted

/-- The four ways a run ends (R223). -/
inductive Ending where
  | halted
  | faulted (f : FaultRecord)
  | blocked
  | diverging
deriving DecidableEq, Repr

/-- The run from `s` with the console `c` ends so (R223): it comes to a halted or a faulted state; or it comes to a read
for which the console never has a value again; or it takes steps for ever. This form of R223's words is DEDUCED (assumption
log, entry 14). -/
def EndsIn (c : Console) (s : State) : Ending → Prop
  | .halted => ∃ n, (s.run c n).status = .halted
  | .faulted f => ∃ n, (s.run c n).status = .faulted f
  | .blocked => ∃ n,
      ((s.run c n).awaitsInt = true ∧ ∀ m, n ≤ m → c.int m = none) ∨
      ((s.run c n).awaitsChar = true ∧ ∀ m, n ≤ m → c.char m = none)
  | .diverging => ∀ n, ∃ m, n ≤ m ∧ ∃ t, step (s.run c m) = .next t

/-- Only halted counts as a normal end (R223). -/
def Ending.normal (e : Ending) : Bool := e == .halted

/-! ### The invariant -/

/-- Memory is in canonical form, a state with the fault record set is not active (10_state.md R27, 60_exceptions.md
R203), and before the first step the engine is active with no output (R32). -/
def State.Inv (s : State) : Prop :=
  s.mem.wf = true ∧ (s.fault.isSome = true → s.active = false) ∧
    (s.started = false → s.active = true ∧ s.out = [])

/-! ### What an instruction writes -/

/-- The registers an instruction's rule writes: its destination, and the implicit registers of 10_state.md R23. The
pc's advance at the end of every instruction is not listed. -/
def destRegs : Instr → List Reg
  | .nop => []
  | .input => [Reg.rs]
  | .inputChar => [Reg.rs]
  | .add _ _ c => [c]
  | .subt _ _ c => [c]
  | .mult _ _ c => [c]
  | .div _ _ c => [c]
  | .neg _ b => [b]
  | .and _ _ c => [c]
  | .or _ _ c => [c]
  | .lshift _ b => [b]
  | .rshift _ b => [b]
  | .gt _ _ c => [c]
  | .lt _ _ c => [c]
  | .eq _ _ c => [c]
  | .branch _ _ => [Reg.pc]
  | .jump _ => [Reg.pc]
  | .copy _ b => [b]
  | .output _ => []
  | .outputChar _ => []
  | .pushStk _ => [Reg.sp]
  | .popStk a => [Reg.sp, a]
  | .load _ b => [b]
  | .loadByte _ b => [b]
  | .store _ _ => []
  | .storeByte _ _ => []
  | .outputStr _ => []
  | .coreDump _ _ => []
  | .loadLit _ => [Reg.rs]
  | .jumpLit _ => [Reg.pc]
  | .jumpLabel _ => [Reg.pc]
  | .branchLit _ _ => [Reg.pc]
  | .set a _ => [a]
  | .halt => []

/-- Where an instruction stores, and how many bytes (20_memory.md R52): PUSH_STK, STORE and STORE_BYTE only. -/
def storeTarget (i : Instr) (s : State) : Option (Int × Nat) :=
  match i with
  | .pushStk _ => some (s.pushAddress, 4)
  | .store a _ => some (s.address a, 4)
  | .storeByte a _ => some (s.address a, 1)
  | .nop | .input | .inputChar | .halt => none
  | .add _ _ _ | .subt _ _ _ | .mult _ _ _ | .div _ _ _ | .and _ _ _ | .or _ _ _ => none
  | .gt _ _ _ | .lt _ _ _ | .eq _ _ _ => none
  | .neg _ _ | .lshift _ _ | .rshift _ _ | .branch _ _ | .copy _ _ => none
  | .load _ _ | .loadByte _ _ | .coreDump _ _ => none
  | .jump _ | .output _ | .outputChar _ | .popStk _ | .outputStr _ => none
  | .loadLit _ | .jumpLit _ | .jumpLabel _ | .branchLit _ _ | .set _ _ => none

/-- The memory holds the string `str` at `a` as OUTPUT_STR reads it (44_console.md R156): half-words in range, none of
them zero, and then a zero half-word in range. -/
def IsStringAt (m : Memory) : Int → List Half → Prop
  | a, [] => m.loadHalf a = some 0
  | a, h :: hs => m.loadHalf a = some h ∧ h ≠ 0 ∧ IsStringAt m (a + 2) hs

/-! ### What two states share -/

/-- Every byte of memory reads the same, and the memory has the same size. -/
def SameMemory (s t : State) : Prop := t.mem.size = s.mem.size ∧ ∀ a : Nat, t.mem.byte a = s.mem.byte a

/-- The active flag and the fault record are the same. -/
def SameControl (s t : State) : Prop := t.active = s.active ∧ t.fault = s.fault

/-- The output and what the console will supply are the same. -/
def SameConsole (s t : State) : Prop := t.out = s.out ∧ t.inInts = s.inInts ∧ t.inChars = s.inChars

/-- The pc reads as the address of the next instruction in line, `len` bytes on (40_cycle.md R84). -/
def Advanced (len : Nat) (s t : State) : Prop := t.reg Reg.pc = s.reg Reg.pc + BitVec.ofNat 32 len

/-- Register `d` holds `v`, and no register but `d` and the pc has changed; the pc has advanced by `len` unless `d` is
the pc (40_cycle.md R84). -/
def WritesReg (d : Reg) (v : Word) (len : Nat) (s t : State) : Prop :=
  t.reg d = v ∧ (d ≠ Reg.pc → Advanced len s t) ∧ ∀ r : Reg, r ≠ d → r ≠ Reg.pc → t.reg r = s.reg r

/-- No register but the pc has changed, and the pc has advanced by `len`. -/
def WritesNoReg (len : Nat) (s t : State) : Prop :=
  Advanced len s t ∧ ∀ r : Reg, r ≠ Reg.pc → t.reg r = s.reg r

/-- The pc holds `target`, and no other register has changed (42_control.md). -/
def JumpsTo (target : Word) (s t : State) : Prop :=
  t.reg Reg.pc = target ∧ ∀ r : Reg, r ≠ Reg.pc → t.reg r = s.reg r

/-- Nothing but the fault record and the active flag has changed: the record holds `c` and the pc, and the engine has
stopped (40_cycle.md R86, 60_exceptions.md R203). That a step was taken is noted, as after every step. -/
def TookFault (c : Cause) (s t : State) : Prop :=
  t.fault = some { cause := c, addr := s.reg Reg.pc } ∧ t.active = false ∧ t.started = true ∧
    (∀ r : Reg, t.reg r = s.reg r) ∧ SameMemory s t ∧ SameConsole s t

end Sys2Proof.Machine
end

