-- ==== Sys2Proof/Certificates/Slice0/Obligations.lean ====
section
/-! DEFINITION. The statements for the provers, each from a rule of spec/. The shapes they share come first. -/

namespace Sys2Proof.Machine

/-- Nothing but registers has changed. -/
def OnlyRegisters (s t : State) : Prop := SameMemory s t ∧ SameControl s t ∧ SameConsole s t

/-- One event was appended to the output, and what the console will supply is the same. -/
def Emits (e : Event) (s t : State) : Prop := t.out = s.out ++ [e] ∧ t.inInts = s.inInts ∧ t.inChars = s.inChars

/-- From `s` the instruction `i` takes the runtime fault `c` and has no other effect. -/
def ExecFaults (i : Instr) (c : Cause) (s : State) : Prop := ∃ t, exec i s = .next t ∧ TookFault c s t

/-- From `s` the step takes the runtime fault `c` and has no other effect. -/
def StepFaults (c : Cause) (s : State) : Prop := ∃ t, step s = .next t ∧ TookFault c s t

/-- The R3 instruction `mk` has the opcode `op`, and from every state, with every operand, it goes on to a next state in
which register C, and nothing else but the pc, holds the word related by `result` to the old values of A and B. -/
def ComputesR3 (mk : Reg → Reg → Reg → Instr) (op : Byte) (result : Word → Word → Word → Prop) : Prop :=
  ∀ (s : State) (A B C : Reg), encode (mk A B C) = [op, byteOfReg A, byteOfReg B, byteOfReg C] ∧
    ∃ t v, exec (mk A B C) s = .next t ∧ result (s.reg A) (s.reg B) v ∧ WritesReg C v 4 s t ∧ OnlyRegisters s t

/-- The R2 instruction `mk` has the opcode `op`, and from every state, with every operand, it goes on to a next state in
which register B, and nothing else but the pc, holds the word related by `result` to the old value of A. -/
def ComputesR2 (mk : Reg → Reg → Instr) (op : Byte) (result : Word → Word → Prop) : Prop :=
  ∀ (s : State) (A B : Reg), encode (mk A B) = [op, byteOfReg A, byteOfReg B] ∧
    ∃ t v, exec (mk A B) s = .next t ∧ result (s.reg A) v ∧ WritesReg B v 3 s t ∧ OnlyRegisters s t

/-- The bytes `bs` stand at `a` in `t`, and every byte outside them reads as it did in `s`. -/
def StoresBytes (a : Nat) (bs : List Byte) (s t : State) : Prop :=
  t.mem.size = s.mem.size ∧ (s.mem.wf = true → t.mem.bytes a bs.length = bs) ∧
    ∀ x : Nat, (x < a ∨ a + bs.length ≤ x) → t.mem.byte x = s.mem.byte x

/-- How many register fields a format has; they are its first operand bytes (30_encoding.md R61). -/
def registerFields : Format → Nat
  | .n => 0
  | .r1 => 1
  | .r2 => 2
  | .r3 => 3
  | .l => 0
  | .rl => 1

/-- The encoder's table R74 for one row of the opcode map. -/
def EncodesAsTable (op : Byte) : Shape → Prop
  | .n i => encode i = [op]
  | .r1 f => ∀ A, encode (f A) = [op, byteOfReg A]
  | .r2 f => ∀ A B, encode (f A B) = [op, byteOfReg A, byteOfReg B]
  | .r3 f => ∀ A B C, encode (f A B C) = [op, byteOfReg A, byteOfReg B, byteOfReg C]
  | .l f => ∀ lit, encode (f lit) =
      [op, lit.extractLsb' 24 8, lit.extractLsb' 16 8, lit.extractLsb' 8 8, lit.extractLsb' 0 8]
  | .rl f => ∀ A lit, encode (f A lit) =
      [op, byteOfReg A, lit.extractLsb' 24 8, lit.extractLsb' 16 8, lit.extractLsb' 8 8, lit.extractLsb' 0 8]

end Sys2Proof.Machine

open Sys2Proof Sys2Proof.Machine

/-! ### Encoding -/

/-- The encoder's table and its two laws with the decoder at an address of memory: the spec's own inference in R74, from
R61, R63 and R71. -/
def Obligations.EncoderIsInverseOfDecoder : Prop :=
  (∀ op sh, shapeOf op = some sh → EncodesAsTable op sh) ∧
  (∀ (m : Memory) (a : Int) (i : Instr), i.wellFormed = true → 0 ≤ a → a + i.length ≤ m.size →
    m.bytes a.toNat i.length = encode i → m.decodeAt a = .ok i) ∧
  (∀ (m : Memory) (a : Int) (i : Instr), m.decodeAt a = .ok i → m.bytes a.toNat i.length = encode i)

/-- R66: the category of every byte, and the length of every category. -/
def Obligations.CategoryOfEveryOpcodeByte : Prop :=
  (∀ op : Byte, category op =
    if op ∈ ([0x00, 0x01, 0x02, 0xFF] : List Byte) then some .n
    else if op ∈ ([0x10, 0x12, 0x13, 0x14, 0x15, 0x1B] : List Byte) then some .r1
    else if op ∈ ([0x07, 0x0A, 0x0B, 0x0F, 0x11, 0x17, 0x18, 0x19, 0x1A, 0x1C] : List Byte) then some .r2
    else if op ∈ ([0x03, 0x04, 0x05, 0x06, 0x08, 0x09, 0x0C, 0x0D, 0x0E] : List Byte) then some .r3
    else if op ∈ ([0x1D, 0x1E] : List Byte) then some .l
    else if op ∈ ([0x1F, 0x20] : List Byte) then some .rl
    else none) ∧
  (∀ op : Byte, category op = none ↔ op = 0x16 ∨ (0x21 ≤ op ∧ op ≤ 0xFE)) ∧
  Format.length .n = 1 ∧ Format.length .r1 = 2 ∧ Format.length .r2 = 3 ∧ Format.length .r3 = 4 ∧
  Format.length .l = 5 ∧ Format.length .rl = 6

/-- Words of the spec's listings decode to what they stand for (R44, R62, R63; 95_test_vectors.md E3, E6, 2.1). -/
def Obligations.ListedWordsDecode : Prop :=
  decode [0x20, 0x01, 0x00, 0x00, 0x00, 0x05] = .ok (.set 1 5, []) ∧
  decode [0x1D, 0x00, 0x00, 0x00, 0x20] = .ok (.loadLit 32, []) ∧
  decode [0x03, 0x05, 0x13, 0x05] = .ok (.add 5 Reg.rs 5, []) ∧
  decode [0x12, 0x05] = .ok (.output 5, []) ∧
  decode [0x1E, 0x00, 0x00, 0x00, 0x0F] = .ok (.jumpLit 15, []) ∧
  decode [0x0F, 0x01, 0x02] = .ok (.branch 1 2, []) ∧
  decode [0x19, 0x03, 0x01] = .ok (.store 3 1, []) ∧
  decode [0x14, 0x01, 0xFF] = .ok (.pushStk 1, [0xFF])

/-- A word placed for the next fetch is the instruction fetched. -/
def Obligations.PlacedWordIsFetched : Prop :=
  ∀ (s : State) (nbits w : Nat) (i : Instr), s.mem.wf = true → 0 ≤ s32 (s.reg Reg.pc) →
    s32 (s.reg Reg.pc) + 6 ≤ s.mem.size → decodeTableWord nbits w = some i →
    (s.withFetchWord nbits w).fetch = .ok i

/-- Bytes written over an address are what a later fetch there decodes: the spec's own inference in R58, 'A fetch reads
the same array as data accesses'. -/
def Obligations.WrittenCodeIsFetched : Prop :=
  ∀ (m : Memory) (a : Nat) (i : Instr), m.wf = true → i.wellFormed = true → a + i.length ≤ m.size →
    (m.setBytes a (encode i)).decodeAt a = .ok i

/-! ### The cycle -/

/-- R87: an enabled step runs the instruction its pc points at, whether that is said by the fetch or by the bytes. -/
def Obligations.StepRunsDecodedInstruction : Prop :=
  (∀ (s : State) (i : Instr), s.active = true → s.fault = none → s.fetch = .ok i → step s = exec i s) ∧
  (∀ (s : State) (i : Instr), s.active = true → s.fault = none → i.wellFormed = true →
    0 ≤ s32 (s.reg Reg.pc) → s32 (s.reg Reg.pc) + i.length ≤ s.mem.size →
    s.mem.bytes (s32 (s.reg Reg.pc)).toNat i.length = encode i → step s = exec i s)

/-- R80: a step is taken only with the engine active and no fault recorded; an inactive engine is halted with no fault
recorded and faulted with one. -/
def Obligations.StoppedEngineTakesNoStep : Prop :=
  ∀ s : State, (s.active = false → ∀ t, step s ≠ .next t) ∧ (s.fault ≠ none → ∀ t, step s ≠ .next t) ∧
    (s.active = false → s.fault = none → s.status = .halted) ∧
    (∀ f, s.active = false → s.fault = some f → s.status = .faulted f)

/-- R80, R89: a state has a next state exactly when it is running; and a run, from a load or from any other state and with
any console, ends in exactly one of four ways, halted by HALT alone. The four ways are the spec's own inference in R223;
their form here is the model's (assumption log, entry 14, DEDUCED): a run goes by moments, the console is a function of
the moment, blocked is a console with no value from some moment on, and diverging is steps without end. The model's
choices besides: the names that stand for 'no step' (entry 3), and that a read is blocked while the model's queue is
empty (entry 2). -/
def Obligations.StatusDecidesStep : Prop :=
  (∀ s : State,
    match s.status with
    | .running => ∃ t, step s = .next t
    | .halted => step s = .fault .halted
    | .faulted _ => step s = .fault .faulted
    | .blocked => step s = .fault .consoleBlocked) ∧
  (∀ (c : Console) (s : State), ∃! e, EndsIn c s e) ∧
  (∀ (c : Console) (s : State), s.status ≠ .halted → EndsIn c s .halted →
    ∃ n, (s.run c n).fetch = .ok .halt ∧ step (s.run c n) = .next (s.run c (n + 1)) ∧
      (s.run c (n + 1)).status = .halted)

/-- R88: the fault a step reports, in order of priority; past them the instruction executes. -/
def Obligations.FaultPriority : Prop :=
  ∀ s : State, s.active = true → s.fault = none →
    (¬ (0 ≤ s32 (s.reg Reg.pc) ∧ s32 (s.reg Reg.pc) < s.mem.size) → StepFaults .fetchRange s) ∧
    (0 ≤ s32 (s.reg Reg.pc) → s32 (s.reg Reg.pc) < s.mem.size →
      match category (s.mem.byte (s32 (s.reg Reg.pc)).toNat) with
      | none => StepFaults .illegalOpcode s
      | some f =>
        (¬ s32 (s.reg Reg.pc) + f.length ≤ s.mem.size → StepFaults .fetchRange s) ∧
        (s32 (s.reg Reg.pc) + f.length ≤ s.mem.size →
          ((∃ k, 1 ≤ k ∧ k ≤ registerFields f ∧
              20 ≤ (s.mem.byte ((s32 (s.reg Reg.pc)).toNat + k)).toNat) → StepFaults .badRegister s) ∧
          ((∀ k, 1 ≤ k → k ≤ registerFields f →
              (s.mem.byte ((s32 (s.reg Reg.pc)).toNat + k)).toNat < 20) →
            ∃ i, s.fetch = .ok i ∧ i.length = f.length ∧ step s = exec i s ∧
              ∀ t, exec i s = .next t →
                t.fault = none ∨ TookFault .divZero s t ∨ TookFault .memRange s t)))

/-- R86: a step that raises a fault changes the fault record and the active flag and nothing else, and records the
address of its opcode byte. -/
def Obligations.FaultingStepIsPrecise : Prop :=
  ∀ (s t : State) (f : FaultRecord), step s = .next t → t.fault = some f →
    f.addr = s.reg Reg.pc ∧ TookFault f.cause s t

/-- R201: the codes, and which opcodes raise the two execute faults. -/
def Obligations.ExecuteFaultsByOpcode : Prop :=
  [Cause.fetchRange, .illegalOpcode, .badRegister, .divZero, .memRange].map Cause.code = [1, 2, 3, 4, 5] ∧
  ∀ (i : Instr) (s t : State) (f : FaultRecord), s.fault = none → exec i s = .next t → t.fault = some f →
    (f.cause = .divZero ∧ i.opcode = 0x06) ∨
    (f.cause = .memRange ∧ i.opcode ∈ ([0x14, 0x15, 0x17, 0x18, 0x19, 0x1A, 0x1B, 0x1C] : List Byte))

/-- R26, R200: only HALT and a runtime fault clear the active flag, and no instruction sets it. -/
def Obligations.OnlyHaltAndFaultsStop : Prop :=
  ∀ (i : Instr) (s t : State), s.fault = none → exec i s = .next t →
    (t.active = true → s.active = true) ∧
    (s.active = true → (t.active = false ↔ i = .halt ∨ t.fault ≠ none))

/-- R84: of the writes of an instruction to register 18 the last one stays; with none the pc advances. -/
def Obligations.LastPcWriteWins : Prop :=
  ∀ (s : State) (len : Nat) (ws : List (Reg × Word)),
    (s.retire len ws).reg Reg.pc =
      match (ws.filter fun w => w.1 == Reg.pc).getLast? with
      | some w => w.2
      | none => wrap32 (s32 (s.reg Reg.pc) + len)

/-- The advance past a fetched instruction never wraps: the spec's own inference in R84, 'the auto-advance never wraps'. -/
def Obligations.AdvanceNeverWraps : Prop :=
  ∀ (s : State) (i : Instr), s.mem.wf = true → s.fetch = .ok i →
    s32 (s.reg Reg.pc + BitVec.ofNat 32 i.length) = s32 (s.reg Reg.pc) + i.length ∧
    s32 (s.reg Reg.pc) + i.length ≤ s.mem.size

/-! ### Invariants and frames over every instruction -/

/-- The canonical form of memory, its size, 'a faulted engine is inactive' and 'an engine not stepped since its load is
active with no output' are kept by every step; the record of the first step is the model's (assumption log, entry 13). -/
def Obligations.StepKeepsInvariant : Prop :=
  ∀ s t : State, s.Inv → step s = .next t → t.Inv ∧ t.mem.size = s.mem.size

/-- The invariant holds at reset: the load of the empty image, the model's choice (assumption log, entry 5), with the
model's record of the first step unset (entry 13). -/
def Obligations.ResetMeetsInvariant : Prop := State.reset.Inv

/-- R220, R221: what a load leaves, and which images it refuses. -/
def Obligations.LoadGivesResetState : Prop :=
  ∀ (memSize : Nat) (image : List Byte), memSizeWellFormed memSize = true →
    (image.length > memSize → State.load memSize image = none) ∧
    (image.length ≤ memSize → ∃ s, State.load memSize image = some s ∧ (∀ r : Reg, s.reg r = 0) ∧
      s.mem.size = memSize ∧ s.mem.bytes 0 image.length = image ∧
      (∀ a, image.length ≤ a → s.mem.byte a = 0) ∧
      s.active = true ∧ s.fault = none ∧ s.out = [] ∧ s.Inv)

/-- R30: a step only appends to the output, at most one event. -/
def Obligations.OutputIsOnlyAppended : Prop :=
  ∀ s t : State, step s = .next t → t.out = s.out ∨ ∃ e, t.out = s.out ++ [e]

/-- R23, R83: an instruction changes no register but those its rule writes and the pc. -/
def Obligations.RegistersOutsideDestinationsKept : Prop :=
  ∀ (i : Instr) (s t : State), exec i s = .next t → ∀ r : Reg, r ∉ destRegs i → r ≠ Reg.pc → t.reg r = s.reg r

/-- R52, R53: an instruction changes no byte of memory outside the ones it stores to, and none where it stores
nothing. -/
def Obligations.MemoryOutsideStoresKept : Prop :=
  ∀ (i : Instr) (s t : State), exec i s = .next t → t.mem.size = s.mem.size ∧
    (storeTarget i s = none → ∀ x : Nat, t.mem.byte x = s.mem.byte x) ∧
    (∀ (a : Int) (n : Nat), storeTarget i s = some (a, n) →
      ∀ x : Nat, ((x : Int) < a ∨ a + n ≤ x) → t.mem.byte x = s.mem.byte x)

/-- Only the six console opcodes touch the console: the spec's own inference in R41. -/
def Obligations.ConsoleOnlyThroughItsOpcodes : Prop :=
  ∀ (i : Instr) (s t : State), exec i s = .next t →
    i.opcode ∉ ([0x01, 0x02, 0x12, 0x13, 0x1B, 0x1C] : List Byte) → SameConsole s t

/-! ### Memory -/

/-- A stored word read back whole, by bytes and by half-words: the spec's own inference in R51, from R45 to R47. -/
def Obligations.MixedWidthAccess : Prop :=
  ∀ (m m' : Memory) (a : Int) (v : Word), m.wf = true → m.storeWord a v = some m' →
    m'.loadWord a = some v ∧ m'.loadByte a = some (v.extractLsb' 24 8) ∧
    m'.loadByte (a + 3) = some (v.extractLsb' 0 8) ∧ m'.loadHalf (a + 2) = some (v.extractLsb' 0 16)

/-- R49, R156, R222: a string the host places is the string OUTPUT_STR finds, and nothing else changes; the host places
a string that fits right after a load, and nowhere in a run after its first step. The model's, DEDUCED: the field that
records the first step (assumption log, entry 13), and a run as moments with a console (entry 14). -/
def Obligations.PlacedStringIsRead : Prop :=
  (∀ (s t : State) (a : Int) (text : List Half), s.mem.wf = true → (∀ c ∈ text, c ≠ 0) →
    s.placeString a text = some t →
    IsStringAt t.mem a text ∧ t.mem.loadString t.mem.stringFuel a = some text ∧ t.mem.wf = true ∧
      t.mem.size = s.mem.size ∧
      (∀ x : Nat, ((x : Int) < a ∨ a + 2 * text.length + 2 ≤ x) → t.mem.byte x = s.mem.byte x) ∧
      (∀ r : Reg, t.reg r = s.reg r) ∧ SameControl s t ∧ SameConsole s t ∧ t.started = false) ∧
  (∀ (memSize : Nat) (image : List Byte) (s : State) (a : Int) (text : List Half),
    State.load memSize image = some s → 0 ≤ a → a + 2 * text.length + 2 ≤ memSize →
    ∃ t, s.placeString a text = some t) ∧
  (∀ (s t : State), step s = .next t → ∀ (c : Console) (n : Nat) (a : Int) (text : List Half),
    (t.run c n).placeString a text = none)

/-! ### Arithmetic, logic, comparison, moves -/

/-- R91. -/
def Obligations.AddWritesWrappedSum : Prop :=
  ComputesR3 .add 0x03 fun x y v => s32 v = (s32 x + s32 y).bmod (2 ^ 32)

/-- R92. -/
def Obligations.SubtWritesWrappedDifference : Prop :=
  ComputesR3 .subt 0x04 fun x y v => s32 v = (s32 x - s32 y).bmod (2 ^ 32)

/-- R93: the low 32 bits of the product, signed and unsigned alike. -/
def Obligations.MultWritesLowProduct : Prop :=
  ComputesR3 .mult 0x05 fun x y v =>
    s32 v = (s32 x * s32 y).bmod (2 ^ 32) ∧ v.toNat = (x.toNat * y.toNat) % 2 ^ 32

/-- R94: the quotient truncated toward zero, or DIV_ZERO. -/
def Obligations.DivWritesTruncatedQuotient : Prop :=
  ∀ (s : State) (A B C : Reg),
    encode (.div A B C) = [0x06, byteOfReg A, byteOfReg B, byteOfReg C] ∧
    if s.reg B = 0 then ExecFaults (.div A B C) .divZero s
    else ∃ t v, exec (.div A B C) s = .next t ∧
      s32 v = ((s32 (s.reg A)).sign * (s32 (s.reg B)).sign *
        (((s32 (s.reg A)).natAbs / (s32 (s.reg B)).natAbs : Nat) : Int)).bmod (2 ^ 32) ∧
      WritesReg C v 4 s t ∧ OnlyRegisters s t

/-- R95: the complement of every bit. -/
def Obligations.NegWritesComplement : Prop :=
  ComputesR2 .neg 0x07 fun x v => (∀ k < 32, v.getLsbD k = !x.getLsbD k) ∧ s32 v = -s32 x - 1

/-- R96, R97: bit by bit. -/
def Obligations.AndOrAreBitwise : Prop :=
  (ComputesR3 .and 0x08 fun x y v => ∀ k < 32, v.getLsbD k = (x.getLsbD k && y.getLsbD k)) ∧
  (ComputesR3 .or 0x09 fun x y v => ∀ k < 32, v.getLsbD k = (x.getLsbD k || y.getLsbD k))

/-- R98. -/
def Obligations.LshiftDoubles : Prop :=
  ComputesR2 .lshift 0x0A fun x v => s32 v = (s32 x * 2).bmod (2 ^ 32) ∧
    v.getLsbD 0 = false ∧ ∀ k < 31, v.getLsbD (k + 1) = x.getLsbD k

/-- R99. -/
def Obligations.RshiftHalvesTowardMinusInfinity : Prop :=
  ComputesR2 .rshift 0x0B fun x v => s32 v = (s32 x).fdiv 2 ∧
    v.getLsbD 31 = x.getLsbD 31 ∧ ∀ k < 31, v.getLsbD k = x.getLsbD (k + 1)

/-- R100, R101: signed. -/
def Obligations.GtLtCompareSigned : Prop :=
  (ComputesR3 .gt 0x0C fun x y v => v = if s32 x > s32 y then 1 else 0) ∧
  (ComputesR3 .lt 0x0D fun x y v => v = if s32 x < s32 y then 1 else 0)

/-- R102. -/
def Obligations.EqWritesEquality : Prop :=
  ComputesR3 .eq 0x0E fun x y v => v = if x = y then 1 else 0

/-- R103. -/
def Obligations.CopyWritesSource : Prop := ComputesR2 .copy 0x11 fun x v => v = x

/-- R104. -/
def Obligations.LoadLitWritesResultRegister : Prop :=
  ∀ (s : State) (lit : Word), encode (.loadLit lit) = 0x1D :: bytesOfWord lit ∧
    ∃ t, exec (.loadLit lit) s = .next t ∧ WritesReg Reg.rs lit 5 s t ∧ OnlyRegisters s t

/-- R105. -/
def Obligations.SetWritesLiteral : Prop :=
  ∀ (s : State) (A : Reg) (lit : Word), encode (.set A lit) = 0x20 :: byteOfReg A :: bytesOfWord lit ∧
    ∃ t, exec (.set A lit) s = .next t ∧ WritesReg A lit 6 s t ∧ OnlyRegisters s t

/-! ### Control -/

/-- R120. -/
def Obligations.NopOnlyAdvances : Prop :=
  ∀ s : State, encode .nop = [0x00] ∧ ∃ t, exec .nop s = .next t ∧ WritesNoReg 1 s t ∧ OnlyRegisters s t

/-- R121. -/
def Obligations.BranchJumpsWhenNonzero : Prop :=
  ∀ (s : State) (A B : Reg), encode (.branch A B) = [0x0F, byteOfReg A, byteOfReg B] ∧
    ∃ t, exec (.branch A B) s = .next t ∧ OnlyRegisters s t ∧
      if s.reg A = 0 then WritesNoReg 3 s t else JumpsTo (s.reg B) s t

/-- R122. -/
def Obligations.JumpGoesToRegister : Prop :=
  ∀ (s : State) (A : Reg), encode (.jump A) = [0x10, byteOfReg A] ∧
    ∃ t, exec (.jump A) s = .next t ∧ JumpsTo (s.reg A) s t ∧ OnlyRegisters s t

/-- R123: JUMP_LIT, under both its spellings. -/
def Obligations.JumpLitGoesToLiteral : Prop :=
  ∀ (s : State) (lit : Word), encode (.jumpLit lit) = 0x1E :: bytesOfWord lit ∧
    encode (.jumpLabel lit) = encode (.jumpLit lit) ∧ exec (.jumpLabel lit) s = exec (.jumpLit lit) s ∧
    ∃ t, exec (.jumpLit lit) s = .next t ∧ JumpsTo lit s t ∧ OnlyRegisters s t

/-- R124. -/
def Obligations.BranchLitJumpsWhenNonzero : Prop :=
  ∀ (s : State) (A : Reg) (lit : Word), encode (.branchLit A lit) = 0x1F :: byteOfReg A :: bytesOfWord lit ∧
    ∃ t, exec (.branchLit A lit) s = .next t ∧ OnlyRegisters s t ∧
      if s.reg A = 0 then WritesNoReg 6 s t else JumpsTo lit s t

/-- R125: the flag is cleared, and the state, with no fault recorded, is halted: the engine takes no further step. That
the pc advances by 1 is the spec's own inference there, from R84. -/
def Obligations.HaltClearsActive : Prop :=
  ∀ s : State, encode .halt = [0xFF] ∧
    ∃ t, exec .halt s = .next t ∧ t.active = false ∧ t.fault = s.fault ∧ WritesNoReg 1 s t ∧ SameMemory s t ∧
      SameConsole s t ∧ (s.fault = none → t.status = .halted ∧ ∀ u, step t ≠ .next u)

/-! ### Stack, loads, stores -/

/-- R136. -/
def Obligations.PushStoresThenAdvances : Prop :=
  ∀ (s : State) (A : Reg), encode (.pushStk A) = [0x14, byteOfReg A] ∧ s.pushAddress = s32 (s.reg Reg.sp) ∧
    if 0 ≤ s.pushAddress ∧ s.pushAddress + 4 ≤ s.mem.size then
      ∃ t, exec (.pushStk A) s = .next t ∧ StoresBytes s.pushAddress.toNat (bytesOfWord (s.reg A)) s t ∧
        WritesReg Reg.sp (s.reg Reg.sp + 4) 2 s t ∧ SameControl s t ∧ SameConsole s t
    else ExecFaults (.pushStk A) .memRange s

/-- R137. -/
def Obligations.PopRetreatsThenLoads : Prop :=
  ∀ (s : State) (A : Reg), encode (.popStk A) = [0x15, byteOfReg A] ∧ s.popAddress = s32 (s.reg Reg.sp) - 4 ∧
    if 0 ≤ s.popAddress ∧ s.popAddress + 4 ≤ s.mem.size then
      ∃ t v, exec (.popStk A) s = .next t ∧ s.mem.bytes s.popAddress.toNat 4 = bytesOfWord v ∧
        t.reg A = v ∧ (A ≠ Reg.sp → s32 (t.reg Reg.sp) = s32 (s.reg Reg.sp) - 4) ∧
        (A ≠ Reg.pc → Advanced 2 s t) ∧
        (∀ r : Reg, r ≠ A → r ≠ Reg.sp → r ≠ Reg.pc → t.reg r = s.reg r) ∧ OnlyRegisters s t
    else ExecFaults (.popStk A) .memRange s

/-- R135, 'The two are exact inverses': a pop after a push gives the pushed word back, and the stack pointer. -/
def Obligations.PopUndoesPush : Prop :=
  ∀ (s t : State) (A B : Reg), s.mem.wf = true → 0 ≤ s.pushAddress → s.pushAddress + 4 ≤ s.mem.size →
    exec (.pushStk A) s = .next t →
    ∃ u, exec (.popStk B) t = .next u ∧ u.reg B = s.reg A ∧ (B ≠ Reg.sp → u.reg Reg.sp = s.reg Reg.sp) ∧
      ∀ x, u.mem.byte x = t.mem.byte x

/-- R138. -/
def Obligations.LoadReadsBigEndianWord : Prop :=
  ∀ (s : State) (A B : Reg), encode (.load A B) = [0x17, byteOfReg A, byteOfReg B] ∧
    if 0 ≤ s32 (s.reg A) ∧ s32 (s.reg A) + 4 ≤ s.mem.size then
      ∃ t v, exec (.load A B) s = .next t ∧ s.mem.bytes (s32 (s.reg A)).toNat 4 = bytesOfWord v ∧
        WritesReg B v 3 s t ∧ OnlyRegisters s t
    else ExecFaults (.load A B) .memRange s

/-- R139. -/
def Obligations.LoadByteZeroExtends : Prop :=
  ∀ (s : State) (A B : Reg), encode (.loadByte A B) = [0x18, byteOfReg A, byteOfReg B] ∧
    if 0 ≤ s32 (s.reg A) ∧ s32 (s.reg A) < s.mem.size then
      ∃ t v, exec (.loadByte A B) s = .next t ∧ v.toNat = (s.mem.byte (s32 (s.reg A)).toNat).toNat ∧
        WritesReg B v 3 s t ∧ OnlyRegisters s t
    else ExecFaults (.loadByte A B) .memRange s

/-- R140. -/
def Obligations.StoreWritesBigEndianWord : Prop :=
  ∀ (s : State) (A B : Reg), encode (.store A B) = [0x19, byteOfReg A, byteOfReg B] ∧
    s.address A = s32 (s.reg A) ∧
    if 0 ≤ s.address A ∧ s.address A + 4 ≤ s.mem.size then
      ∃ t, exec (.store A B) s = .next t ∧ StoresBytes (s.address A).toNat (bytesOfWord (s.reg B)) s t ∧
        WritesNoReg 3 s t ∧ SameControl s t ∧ SameConsole s t
    else ExecFaults (.store A B) .memRange s

/-- R141. -/
def Obligations.StoreByteWritesLowByte : Prop :=
  ∀ (s : State) (A B : Reg), encode (.storeByte A B) = [0x1A, byteOfReg A, byteOfReg B] ∧
    s.address A = s32 (s.reg A) ∧
    if 0 ≤ s.address A ∧ s.address A < s.mem.size then
      ∃ t, exec (.storeByte A B) s = .next t ∧
        StoresBytes (s.address A).toNat [(s.reg B).extractLsb' 0 8] s t ∧
        WritesNoReg 3 s t ∧ SameControl s t ∧ SameConsole s t
    else ExecFaults (.storeByte A B) .memRange s

/-! ### Console -/

/-- R152, R153, with the console's answers held in the model's own queues (assumption log, entry 2): the next answer
goes to `rs` and nothing else changes; with none the step has no transition. -/
def Obligations.InputTakesNextAnswer : Prop :=
  ∀ s : State, encode .input = [0x01] ∧ encode .inputChar = [0x02] ∧
    (match s.inInts with
      | [] => exec .input s = .fault .consoleBlocked
      | v :: vs => ∃ t, exec .input s = .next t ∧ WritesReg Reg.rs v 1 s t ∧ SameMemory s t ∧ SameControl s t ∧
          t.out = s.out ∧ t.inInts = vs ∧ t.inChars = s.inChars) ∧
    (match s.inChars with
      | [] => exec .inputChar s = .fault .consoleBlocked
      | c :: cs => ∃ t v, exec .inputChar s = .next t ∧ v.toNat = c.toNat ∧ WritesReg Reg.rs v 1 s t ∧
          SameMemory s t ∧ SameControl s t ∧ t.out = s.out ∧ t.inInts = s.inInts ∧ t.inChars = cs)

/-- R89, R150, R222: a blocked read has no transition, and completes with whatever value the host supplies; that the
value passes through the model's queue is the model's choice (assumption log, entry 2). -/
def Obligations.SuppliedReadCompletes : Prop :=
  (∀ (s t : State) (v : Word), s.supplyInt v = some t → step s = .fault .consoleBlocked ∧
    ∃ u, step t = .next u ∧ WritesReg Reg.rs v 1 s u ∧ SameMemory s u ∧ SameControl s u ∧ SameConsole s u) ∧
  (∀ (s t : State) (c : Half), s.supplyChar c = some t → step s = .fault .consoleBlocked ∧
    ∃ u, step t = .next u ∧ WritesReg Reg.rs (c.setWidth 32) 1 s u ∧ SameMemory s u ∧ SameControl s u ∧
      SameConsole s u)

/-- R154. -/
def Obligations.OutputEmitsInteger : Prop :=
  ∀ (s : State) (A : Reg), encode (.output A) = [0x12, byteOfReg A] ∧
    ∃ t, exec (.output A) s = .next t ∧ Emits (.outInt (s.reg A)) s t ∧ WritesNoReg 2 s t ∧ SameMemory s t ∧
      SameControl s t

/-- R155. -/
def Obligations.OutputCharEmitsLowHalf : Prop :=
  ∀ (s : State) (A : Reg), encode (.outputChar A) = [0x13, byteOfReg A] ∧
    ∃ t, exec (.outputChar A) s = .next t ∧ Emits (.outChar ((s.reg A).extractLsb' 0 16)) s t ∧
      WritesNoReg 2 s t ∧ SameMemory s t ∧ SameControl s t

/-- R156. -/
def Obligations.OutputStrEmitsWholeString : Prop :=
  ∀ (s : State) (A : Reg), encode (.outputStr A) = [0x1B, byteOfReg A] ∧
    (∀ str, IsStringAt s.mem (s32 (s.reg A)) str →
      ∃ t, exec (.outputStr A) s = .next t ∧ Emits (.outStr str) s t ∧ WritesNoReg 2 s t ∧ SameMemory s t ∧
        SameControl s t) ∧
    ((∀ str, ¬ IsStringAt s.mem (s32 (s.reg A)) str) → ExecFaults (.outputStr A) .memRange s)

/-- R157. -/
def Obligations.CoreDumpEmitsRange : Prop :=
  ∀ (s : State) (A B : Reg), encode (.coreDump A B) = [0x1C, byteOfReg A, byteOfReg B] ∧
    if s32 (s.reg B) ≤ 0 then
      ∃ t, exec (.coreDump A B) s = .next t ∧ Emits (.outDump (s.reg A) []) s t ∧ WritesNoReg 3 s t ∧
        SameMemory s t ∧ SameControl s t
    else if 0 ≤ s32 (s.reg A) ∧ s32 (s.reg A) + s32 (s.reg B) ≤ s.mem.size then
      ∃ t, exec (.coreDump A B) s = .next t ∧
        Emits (.outDump (s.reg A) (s.mem.bytes (s32 (s.reg A)).toNat (s32 (s.reg B)).toNat)) s t ∧
        WritesNoReg 3 s t ∧ SameMemory s t ∧ SameControl s t
    else ExecFaults (.coreDump A B) .memRange s

/-! ### The assembler -/

/-- An image the assembler emits decodes, from its first byte, into the program's instructions under the opcode table's
names, one for each line of the source: the spec's own inference in R187. -/
def Obligations.AssembledImageDecodesBack : Prop :=
  ∀ (src : List Char) (image : List Byte), assemble src = .ok image →
    ∃ is, assembleInstrs src = .ok is ∧ is.length = (sourceLines src).length ∧ image = encodeAll is ∧
      decodeAll image.length image = .ok (is.map Instr.canonical)

/-- R180, R182, R183: a line's instruction is what its tokens say, with a number for its literal, or, where the literal
names a label, with the byte offset of the line that label leads; and that offset is where the bytes of that line begin
in the image (wrapped where no literal holds it: the model's choice, assumption log, entry 10). -/
def Obligations.LabelOffsetIsItsLinesPlace : Prop :=
  ∀ (src : List Char) (t : LabelTable) (ils : List InstrLine), passOne 0 [] (sourceLines src) = .ok t →
    passTwo t (sourceLines src) = .ok ils →
    assemble src = .ok (encodeAll (ils.map (patchLine ils))) ∧
    (∀ k ≤ ils.length,
      (encodeAll (ils.map (patchLine ils))).drop (lineOffset ils k) =
        encodeAll ((ils.map (patchLine ils)).drop k)) ∧
    ∀ (k : Nat) (l : SourceLine) (toks : List Token) (b : Body), (sourceLines src)[k]? = some l →
      tokenize l.text = .ok toks → bodyOfTokens (splitLabels toks).2 = .ok b →
      match b with
      | .complete i => (ils.map (patchLine ils))[k]? = some i
      | .lacking f tok =>
        match tok.number with
        | some v => (ils.map (patchLine ils))[k]? = some (f v)
        | none => ∃ (index : Nat) (l' : SourceLine) (toks' : List Token),
            t.find tok.text = some index ∧ (sourceLines src)[index]? = some l' ∧
            tokenize l'.text = .ok toks' ∧ tok.text ∈ (splitLabels toks').1 ∧
            (ils.map (patchLine ils))[k]? = some (f (wrap32 (lineOffset ils index)))

/-- R73: an instruction printed and assembled gives its own encoding. -/
def Obligations.PrintedInstructionAssembles : Prop :=
  ∀ i : Instr, assemble (printInstr i) = .ok (encode i)

/-- R176: the registers' names in index order; each of them, in either case, is one token that resolves to its index. -/
def Obligations.RegisterNamesRoundTrip : Prop :=
  (List.finRange 20).map printReg =
    ["$0", "$1", "$2", "$3", "$4", "$5", "$6", "$7", "$8", "$9", "$10", "$11", "$12", "$13", "$14", "$15",
      "$RA", "$SP", "$PC", "$RS"].map String.toList ∧
  ∀ r : Reg, (∃ tok, tokenize (printReg r) = .ok [tok] ∧ tok.reg = some r) ∧
    (∃ tok, tokenize ((printReg r).map Char.toLower) = .ok [tok] ∧ tok.reg = some r)

/-- R175: the tokenizer's example. -/
def Obligations.TokenizerExample : Prop :=
  tokenize "label: add $5 $rs $ra".toList =
    .ok [⟨.label, "LABEL".toList⟩, ⟨.command, "ADD".toList⟩, ⟨.register, "5".toList⟩,
      ⟨.register, "RS".toList⟩, ⟨.register, "RA".toList⟩]
end

