-- ==== Sys2Proof/Laws/Memory.lean ====
section
/-! SUPPORT. Reading after writing, and the canonical form of memory under every operation. -/

namespace Sys2Proof.Machine

/-! ### Cells -/

/-- A byte below every key is the unlisted one. -/
theorem cellsByte_below {size lo a : Nat} {l : List Host.Cell} (h : cellsWellFormed size lo l = true) (ha : a < lo) :
    cellsByte l a = Config.unlistedByte := by
  induction l generalizing lo with
  | nil => rfl
  | cons kb t ih =>
    obtain ⟨k, b⟩ := kb
    simp only [cellsWellFormed, Bool.and_eq_true, decide_eq_true_eq] at h
    have hk : k ≠ a := by omega
    simp only [cellsByte, hk, if_false]
    exact ih h.2 (by omega)

/-- A lower bound may be lowered. -/
theorem cellsWellFormed_mono {size lo lo' : Nat} {l : List Host.Cell} (h : cellsWellFormed size lo l = true)
    (hl : lo' ≤ lo) : cellsWellFormed size lo' l = true := by
  cases l with
  | nil => rfl
  | cons kb t =>
    obtain ⟨k, b⟩ := kb
    simp only [cellsWellFormed, Bool.and_eq_true, decide_eq_true_eq] at h ⊢
    exact ⟨⟨⟨by omega, h.1.1.2⟩, h.1.2⟩, h.2⟩

/-- Writing one byte leaves every other byte alone, whatever the list. -/
theorem cellsByte_cellsSet_ne (l : List Host.Cell) {a a' : Nat} (v : Byte) (h : a' ≠ a) :
    cellsByte (cellsSet l a v) a' = cellsByte l a' := by
  induction l with
  | nil => by_cases hv : v = Config.unlistedByte <;> simp [cellsSet, cellsByte, hv, h.symm]
  | cons kb t ih =>
    obtain ⟨k, b⟩ := kb
    simp only [cellsSet]
    split
    · split <;> simp [cellsByte, h.symm]
    · split
      · subst_vars
        split <;> simp [cellsByte, h.symm]
      · simp [cellsByte, ih]

/-- The byte written is the byte read. -/
theorem cellsByte_cellsSet_same {size lo : Nat} {l : List Host.Cell} (a : Nat) (v : Byte)
    (h : cellsWellFormed size lo l = true) : cellsByte (cellsSet l a v) a = v := by
  induction l generalizing lo with
  | nil => by_cases hv : v = Config.unlistedByte <;> simp [cellsSet, cellsByte, hv]
  | cons kb t ih =>
    obtain ⟨k, b⟩ := kb
    have h' := h
    simp only [cellsWellFormed, Bool.and_eq_true, decide_eq_true_eq] at h
    simp only [cellsSet]
    split
    · rename_i hak
      split
      · rename_i hv
        have hk : k ≠ a := by omega
        simp only [cellsByte, hk, if_false]
        rw [hv]
        exact cellsByte_below h.2 (by omega)
      · simp [cellsByte]
    · split
      · rename_i hak
        split
        · rename_i hv
          rw [hv]
          exact cellsByte_below h.2 (by omega)
        · simp [cellsByte]
      · rename_i hak
        have hk : k ≠ a := fun e => hak e.symm
        simp only [cellsByte, hk, if_false]
        exact ih h.2

/-- Writing a byte inside memory keeps the canonical form. -/
theorem cellsSet_wf {size lo : Nat} {l : List Host.Cell} {a : Nat} (v : Byte) (h : cellsWellFormed size lo l = true)
    (hlo : lo ≤ a) (ha : a < size) : cellsWellFormed size lo (cellsSet l a v) = true := by
  induction l generalizing lo with
  | nil => by_cases hv : v = Config.unlistedByte <;> simp [cellsSet, cellsWellFormed, hv, hlo, ha]
  | cons kb t ih =>
    obtain ⟨k, b⟩ := kb
    have h' := h
    simp only [cellsWellFormed, Bool.and_eq_true, decide_eq_true_eq, bne_iff_ne, ne_eq] at h
    simp only [cellsSet]
    split
    · split
      · exact h'
      · rename_i hv
        simp only [cellsWellFormed, Bool.and_eq_true, decide_eq_true_eq, bne_iff_ne, ne_eq]
        exact ⟨⟨⟨hlo, ha⟩, hv⟩, ⟨⟨by omega, h.1.1.2⟩, h.1.2⟩, h.2⟩
    · split
      · split
        · exact cellsWellFormed_mono h.2 (by omega)
        · rename_i hv
          subst_vars
          simp only [cellsWellFormed, Bool.and_eq_true, decide_eq_true_eq, bne_iff_ne, ne_eq]
          exact ⟨⟨⟨hlo, ha⟩, hv⟩, h.2⟩
      · simp only [cellsWellFormed, Bool.and_eq_true, decide_eq_true_eq, bne_iff_ne, ne_eq]
        exact ⟨⟨⟨h.1.1.1, h.1.1.2⟩, h.1.2⟩, ih h.2 (by omega)⟩

/-! ### Memory -/

variable {m m' : Memory}

/-- The size of a well-formed memory is legal, so every address in it is a non-negative i32 (20_memory.md R42). -/
theorem wf_size (h : m.wf = true) : 1 ≤ m.size ∧ m.size < 2 ^ 31 := by
  simp only [Memory.wf, Bool.and_eq_true, decide_eq_true_eq] at h
  exact ⟨h.1.1, Nat.lt_of_le_of_lt h.1.2 (by decide)⟩

@[simp] theorem setByte_size (a : Nat) (v : Byte) : (m.setByte a v).size = m.size := rfl

@[simp] theorem setBytes_size (a : Nat) (bs : List Byte) : (m.setBytes a bs).size = m.size := by
  induction bs generalizing m a with
  | nil => rfl
  | cons b bs ih => simp [Memory.setBytes, ih]

/-- A write of one byte keeps the canonical form. -/
theorem setByte_wf {a : Nat} (v : Byte) (h : m.wf = true) (ha : a < m.size) : (m.setByte a v).wf = true := by
  simp only [Memory.wf, Bool.and_eq_true, Memory.setByte] at h ⊢
  exact ⟨h.1, cellsSet_wf v h.2 (Nat.zero_le _) ha⟩

/-- A write of several bytes inside memory keeps the canonical form. -/
theorem setBytes_wf {a : Nat} {bs : List Byte} (h : m.wf = true) (ha : a + bs.length ≤ m.size) :
    (m.setBytes a bs).wf = true := by
  induction bs generalizing m a with
  | nil => exact h
  | cons b bs ih =>
    simp only [List.length_cons] at ha
    exact ih (setByte_wf b h (by omega)) (by simp; omega)

/-- Bytes outside a write read as before, whatever the memory. -/
theorem byte_setBytes_outside {a x : Nat} {bs : List Byte} (h : x < a ∨ a + bs.length ≤ x) :
    (m.setBytes a bs).byte x = m.byte x := by
  induction bs generalizing m a with
  | nil => rfl
  | cons b bs ih =>
    simp only [List.length_cons] at h
    rw [Memory.setBytes, ih (by omega)]
    exact cellsByte_cellsSet_ne _ _ (by omega)

/-- Bytes inside a write read as written. -/
theorem byte_setBytes_inside {a k : Nat} {bs : List Byte} (h : m.wf = true) (ha : a + bs.length ≤ m.size)
    (hk : k < bs.length) : (m.setBytes a bs).byte (a + k) = bs[k] := by
  induction bs generalizing m a k with
  | nil => simp at hk
  | cons b bs ih =>
    simp only [List.length_cons] at ha
    cases k with
    | zero =>
      rw [Memory.setBytes, byte_setBytes_outside (Or.inl (by omega))]
      simp only [Memory.wf, Bool.and_eq_true] at h
      exact cellsByte_cellsSet_same _ _ h.2
    | succ k =>
      rw [Memory.setBytes]
      have := ih (m := m.setByte a b) (a := a + 1) (k := k) (setByte_wf b h (by omega)) (by simp; omega)
        (by simpa using hk)
      simpa [Nat.add_assoc, Nat.add_comm 1 k] using this

@[simp] theorem bytes_length (a n : Nat) : (m.bytes a n).length = n := by
  induction n generalizing a with
  | zero => rfl
  | succ n ih => simp [Memory.bytes, ih]

/-- The k-th of the bytes read. -/
theorem getElem_bytes {a n k : Nat} (hk : k < (m.bytes a n).length) : (m.bytes a n)[k] = m.byte (a + k) := by
  induction n generalizing a k with
  | zero => simp at hk
  | succ n ih =>
    cases k with
    | zero => rfl
    | succ k =>
      have := ih (a := a + 1) (k := k) (by simpa [Memory.bytes] using hk)
      simpa [Memory.bytes, Nat.add_assoc, Nat.add_comm 1 k] using this

/-- Reading back a write. -/
theorem bytes_setBytes {a : Nat} {bs : List Byte} (h : m.wf = true) (ha : a + bs.length ≤ m.size) :
    (m.setBytes a bs).bytes a bs.length = bs := by
  apply List.ext_getElem (by simp)
  intro k h1 h2
  rw [getElem_bytes h1, byte_setBytes_inside h ha h2]

/-! ### Range checks -/

section
variable {a : Int}

/-- An access out of range reads nothing and writes nothing (20_memory.md R48). -/
theorem loadByte_out (h : ¬ (0 ≤ a ∧ a + 1 ≤ m.size)) : m.loadByte a = none := if_neg h
theorem loadHalf_out (h : ¬ (0 ≤ a ∧ a + 2 ≤ m.size)) : m.loadHalf a = none := if_neg h
theorem loadWord_out (h : ¬ (0 ≤ a ∧ a + 4 ≤ m.size)) : m.loadWord a = none := if_neg h
theorem storeByte_out (v : Byte) (h : ¬ (0 ≤ a ∧ a + 1 ≤ m.size)) : m.storeByte a v = none := if_neg h
theorem storeHalf_out (v : Half) (h : ¬ (0 ≤ a ∧ a + 2 ≤ m.size)) : m.storeHalf a v = none := if_neg h
theorem storeWord_out (v : Word) (h : ¬ (0 ≤ a ∧ a + 4 ≤ m.size)) : m.storeWord a v = none := if_neg h

/-- An access in range reads the bytes there, or writes them. -/
theorem loadByte_in (h : 0 ≤ a ∧ a + 1 ≤ m.size) : m.loadByte a = some (m.byte a.toNat) := if_pos h
theorem loadHalf_in (h : 0 ≤ a ∧ a + 2 ≤ m.size) :
    m.loadHalf a = some (halfOfBytes (m.byte a.toNat) (m.byte (a.toNat + 1))) := if_pos h
theorem loadWord_in (h : 0 ≤ a ∧ a + 4 ≤ m.size) :
    m.loadWord a = some (wordOfBytes (m.byte a.toNat) (m.byte (a.toNat + 1)) (m.byte (a.toNat + 2))
      (m.byte (a.toNat + 3))) := if_pos h
theorem storeByte_in (v : Byte) (h : 0 ≤ a ∧ a + 1 ≤ m.size) :
    m.storeByte a v = some (m.setByte a.toNat v) := if_pos h
theorem storeHalf_in (v : Half) (h : 0 ≤ a ∧ a + 2 ≤ m.size) :
    m.storeHalf a v = some (m.setBytes a.toNat (bytesOfHalf v)) := if_pos h
theorem storeWord_in (v : Word) (h : 0 ≤ a ∧ a + 4 ≤ m.size) :
    m.storeWord a v = some (m.setBytes a.toNat (bytesOfWord v)) := if_pos h

end

/-- What `store_byte` can do. -/
theorem storeByte_eq {a : Int} {v : Byte} :
    m.storeByte a v = some m' ↔ m.inRange a 1 ∧ m' = m.setBytes a.toNat [v] := by
  unfold Memory.storeByte
  by_cases h : m.inRange a 1
  · rw [if_pos h, Option.some.injEq]
    exact ⟨fun e => ⟨h, e.symm⟩, fun e => e.2.symm⟩
  · rw [if_neg h]
    exact ⟨fun e => (by cases e), fun e => absurd e.1 h⟩

/-- What `store_word` can do. -/
theorem storeWord_eq {a : Int} {v : Word} :
    m.storeWord a v = some m' ↔ m.inRange a 4 ∧ m' = m.setBytes a.toNat (bytesOfWord v) := by
  unfold Memory.storeWord
  by_cases h : m.inRange a 4
  · rw [if_pos h, Option.some.injEq]
    exact ⟨fun e => ⟨h, e.symm⟩, fun e => e.2.symm⟩
  · rw [if_neg h]
    exact ⟨fun e => (by cases e), fun e => absurd e.1 h⟩

/-- What `store_halfword` can do. -/
theorem storeHalf_eq {a : Int} {v : Half} :
    m.storeHalf a v = some m' ↔ m.inRange a 2 ∧ m' = m.setBytes a.toNat (bytesOfHalf v) := by
  unfold Memory.storeHalf
  by_cases h : m.inRange a 2
  · rw [if_pos h, Option.some.injEq]
    exact ⟨fun e => ⟨h, e.symm⟩, fun e => e.2.symm⟩
  · rw [if_neg h]
    exact ⟨fun e => (by cases e), fun e => absurd e.1 h⟩

/-- Every store keeps the canonical form and the size. -/
theorem storeByte_wf {a : Int} {v : Byte} (h : m.wf = true) (hs : m.storeByte a v = some m') :
    m'.wf = true ∧ m'.size = m.size := by
  obtain ⟨⟨h0, h1⟩, rfl⟩ := storeByte_eq.1 hs
  exact ⟨setBytes_wf h (by simp; omega), by simp⟩

theorem storeHalf_wf {a : Int} {v : Half} (h : m.wf = true) (hs : m.storeHalf a v = some m') :
    m'.wf = true ∧ m'.size = m.size := by
  obtain ⟨⟨h0, h1⟩, rfl⟩ := storeHalf_eq.1 hs
  exact ⟨setBytes_wf h (by simp [bytesOfHalf]; omega), by simp⟩

theorem storeWord_wf {a : Int} {v : Word} (h : m.wf = true) (hs : m.storeWord a v = some m') :
    m'.wf = true ∧ m'.size = m.size := by
  obtain ⟨⟨h0, h1⟩, rfl⟩ := storeWord_eq.1 hs
  exact ⟨setBytes_wf h (by simp [bytesOfWord]; omega), by simp⟩

theorem storeString_wf {a : Int} {str : List Half} (h : m.wf = true) (hs : m.storeString a str = some m') :
    m'.wf = true ∧ m'.size = m.size := by
  induction str generalizing m a with
  | nil => exact storeHalf_wf h hs
  | cons c cs ih =>
    obtain ⟨m1, h1, h2⟩ := Option.bind_eq_some_iff.1 hs
    obtain ⟨w1, e1⟩ := storeHalf_wf h h1
    obtain ⟨w2, e2⟩ := ih w1 h2
    exact ⟨w2, e2.trans e1⟩

/-- A program word placed for the next fetch keeps the canonical form. -/
theorem withFetchWord_wf (s : State) (nbits w : Nat) (h : s.mem.wf = true) :
    (s.withFetchWord nbits w).mem.wf = true := by
  unfold State.withFetchWord
  by_cases ha : (s.reg Reg.pc).toNat ≤ s.mem.size
  · exact setBytes_wf h (by rw [List.length_take]; omega)
  · have : s.mem.size - (s.reg Reg.pc).toNat = 0 := by omega
    simpa [this, Memory.setBytes] using h

/-- The memory of a load is in canonical form. -/
theorem load_wf {memSize : Nat} {image : List Byte} {s : State} (h : State.load memSize image = some s) :
    s.mem.wf = true := by
  unfold State.load at h
  split at h
  · rename_i hc
    simp only [Bool.and_eq_true, memSizeWellFormed, imageFits, decide_eq_true_eq] at hc
    cases h
    apply setBytes_wf
    · simp [Memory.wf, cellsWellFormed, hc.1.1, hc.1.2]
    · simpa [Config.loadBase] using hc.2
  · cases h

/-- The memory of the reset state is in canonical form. -/
theorem reset_mem_wf : State.reset.mem.wf = true := by decide

end Sys2Proof.Machine
end

