-- ==== Sys2Proof/Laws/Console.lean ====
section
/-! SUPPORT. What the console's two memory reads can do: the string loop of OUTPUT_STR and the range of CORE_DUMP. -/

namespace Sys2Proof.Machine

variable {m : Memory} {a : Int} {str : List Half}

/-- A half-word that is read lies in memory. -/
theorem loadHalf_bounds {v : Half} (h : m.loadHalf a = some v) : 0 ≤ a ∧ a + 2 ≤ m.size := by
  by_cases hr : 0 ≤ a ∧ a + 2 ≤ m.size
  · exact hr
  · rw [loadHalf_out hr] at h
    cases h

/-- A string at `a`, with its terminator, lies in memory. -/
theorem isStringAt_bounds (h : IsStringAt m a str) : 0 ≤ a ∧ a + 2 * str.length + 2 ≤ m.size := by
  induction str generalizing a with
  | nil =>
    have := loadHalf_bounds h
    simp only [List.length_nil]
    omega
  | cons c cs ih =>
    have h1 := loadHalf_bounds h.1
    have h2 := ih h.2.2
    simp only [List.length_cons]
    omega

/-- The loop finds a string that is there, if the fuel lasts. -/
theorem loadString_of_isStringAt {fuel : Nat} (h : IsStringAt m a str) (hf : str.length < fuel) :
    m.loadString fuel a = some str := by
  induction str generalizing a fuel with
  | nil =>
    obtain ⟨k, rfl⟩ := Nat.exists_eq_add_of_lt hf
    have h' : m.loadHalf a = some 0 := h
    simp [Memory.loadString, h']
  | cons c cs ih =>
    obtain ⟨h1, h2, h3⟩ := h
    cases fuel with
    | zero => simp at hf
    | succ f =>
      rw [Memory.loadString, h1]
      simp only [if_neg h2, ih h3 (by simpa using hf), Option.map_some]

/-- What the loop finds is a string that is there. -/
theorem isStringAt_of_loadString {fuel : Nat} (h : m.loadString fuel a = some str) : IsStringAt m a str := by
  induction fuel generalizing a str with
  | zero => cases h
  | succ f ih =>
    unfold Memory.loadString at h
    split at h
    · cases h
    · rename_i c hc
      split at h
      · rename_i h0
        cases h
        subst h0
        exact hc
      · rename_i h0
        obtain ⟨cs, hcs, rfl⟩ := Option.map_eq_some_iff.1 h
        exact ⟨hc, h0, ih hcs⟩

/-- The fuel of `Memory.stringFuel` always lasts: the loop answers a string exactly when it is there
(44_console.md R156). -/
theorem loadString_iff : m.loadString m.stringFuel a = some str ↔ IsStringAt m a str := by
  refine ⟨isStringAt_of_loadString, fun h => loadString_of_isStringAt h ?_⟩
  have := isStringAt_bounds h
  unfold Memory.stringFuel
  omega

/-- The loop answers nothing exactly when no string is there. -/
theorem loadString_none : m.loadString m.stringFuel a = none ↔ ∀ str, ¬ IsStringAt m a str := by
  constructor
  · intro h str hs
    rw [loadString_iff.2 hs] at h
    cases h
  · intro h
    cases e : m.loadString m.stringFuel a with
    | none => rfl
    | some str => exact absurd (loadString_iff.1 e) (h str)

/-- A count of 0 or less dumps nothing and checks no address (R157). -/
theorem dumpBytes_none_to_dump (s : State) (a : Int) {n : Int} (h : n ≤ 0) : s.dumpBytes a n = some [] := if_pos h

/-- A range in memory is dumped. -/
theorem dumpBytes_in (s : State) {n : Int} (h : 0 < n) (hr : 0 ≤ a ∧ a + n ≤ s.mem.size) :
    s.dumpBytes a n = some (s.mem.bytes a.toNat n.toNat) := by
  rw [State.dumpBytes, if_neg (by omega), if_pos hr]

/-- A range that leaves memory is not. -/
theorem dumpBytes_out (s : State) {n : Int} (h : 0 < n) (hr : ¬ (0 ≤ a ∧ a + n ≤ s.mem.size)) :
    s.dumpBytes a n = none := by
  rw [State.dumpBytes, if_neg (by omega), if_neg hr]

end Sys2Proof.Machine
end

