-- ==== Sys2Proof/Laws/Encoding.lean ====
section
/-! SUPPORT. The fields of an encoding: registers, words and half-words, there and back. -/

namespace Sys2Proof

@[simp] theorem byteOfReg_toNat (r : Reg) : (byteOfReg r).toNat = r.val := by
  simp only [byteOfReg, BitVec.toNat_ofNat]
  omega

/-- A register's field byte names it. -/
@[simp] theorem regOfByte_byteOfReg (r : Reg) : regOfByte (byteOfReg r) = some r := by
  unfold regOfByte
  simp

/-- The byte that names a register is its field byte. -/
theorem byteOfReg_of_regOfByte {f : Byte} {r : Reg} (h : regOfByte f = some r) : byteOfReg r = f := by
  unfold regOfByte at h
  split at h
  · cases h
    apply BitVec.eq_of_toNat_eq
    simp
  · cases h

/-- A field byte names no register exactly when it is ill formed. -/
theorem regOfByte_eq_none {f : Byte} : regOfByte f = none ↔ fieldWellFormed f = false := by
  unfold regOfByte fieldWellFormed
  split <;> simp_all

/-- The bytes of a word put together again. -/
@[simp] theorem wordOfBytes_bytesOfWord (w : Word) :
    wordOfBytes (w.extractLsb' 24 8) (w.extractLsb' 16 8) (w.extractLsb' 8 8) (w.extractLsb' 0 8) = w := by
  apply BitVec.eq_of_getLsbD_eq
  intro i hi
  simp only [wordOfBytes, BitVec.getLsbD_append, BitVec.getLsbD_extractLsb']
  rcases Nat.lt_or_ge i 8 with h | h
  · simp [h]
  rcases Nat.lt_or_ge i 16 with h2 | h2
  · have e : 8 + (i - 8) = i := by omega
    simp [show ¬ i < 8 by omega, show i - 8 < 8 by omega, e]
  rcases Nat.lt_or_ge i 24 with h3 | h3
  · have e : 16 + (i - 8 - 8) = i := by omega
    simp [show ¬ i < 8 by omega, show ¬ i - 8 < 8 by omega, show i - 8 - 8 < 8 by omega, e]
  · have e : 24 + (i - 8 - 8 - 8) = i := by omega
    simp [show ¬ i < 8 by omega, show ¬ i - 8 < 8 by omega, show ¬ i - 8 - 8 < 8 by omega,
      show i - 8 - 8 - 8 < 8 by omega, e]

/-- The word put together of four bytes has those bytes. -/
@[simp] theorem bytesOfWord_wordOfBytes (b0 b1 b2 b3 : Byte) :
    bytesOfWord (wordOfBytes b0 b1 b2 b3) = [b0, b1, b2, b3] := by
  simp only [bytesOfWord, List.cons.injEq, and_true]
  refine ⟨?_, ?_, ?_, ?_⟩ <;>
  · apply BitVec.eq_of_getLsbD_eq
    intro i hi
    simp only [wordOfBytes, BitVec.getLsbD_append, BitVec.getLsbD_extractLsb', hi, decide_true, Bool.true_and]
    first
    | simp [hi]; done
    | simp [show ¬ 16 + i < 8 by omega, show ¬ 16 + i - 8 < 8 by omega, show 16 + i - 8 - 8 = i by omega, hi]; done
    | simp [show ¬ 24 + i < 8 by omega, show ¬ 24 + i - 8 < 8 by omega, show ¬ 24 + i - 8 - 8 < 8 by omega,
        show 24 + i - 8 - 8 - 8 = i by omega, hi]

@[simp] theorem bytesOfWord_length (w : Word) : (bytesOfWord w).length = 4 := rfl

@[simp] theorem bytesOfHalf_length (h : Half) : (bytesOfHalf h).length = 2 := rfl

/-- The bytes of a half-word put together again. -/
@[simp] theorem halfOfBytes_bytesOfHalf (h : Half) :
    halfOfBytes (h.extractLsb' 8 8) (h.extractLsb' 0 8) = h := by
  apply BitVec.eq_of_getLsbD_eq
  intro i hi
  simp only [halfOfBytes, BitVec.getLsbD_append, BitVec.getLsbD_extractLsb']
  rcases Nat.lt_or_ge i 8 with h8 | h8
  · simp [h8]
  · simp [show ¬ i < 8 by omega, show i - 8 < 8 by omega, show 8 + (i - 8) = i by omega]

end Sys2Proof
end

