-- ==== Sys2Proof/Laws/State.lean ====
section
/-! SUPPORT. One lemma for each field after each update of the state. -/

namespace Sys2Proof.Machine

variable (s : State) (r q : Reg) (v : Word) (c : Cause) (e : Event) (m : Memory) (len : Nat) (ws : List (Reg × Word))

@[simp] theorem setReg_mem : (s.setReg r v).mem = s.mem := rfl
@[simp] theorem setReg_active : (s.setReg r v).active = s.active := rfl
@[simp] theorem setReg_fault : (s.setReg r v).fault = s.fault := rfl
@[simp] theorem setReg_out : (s.setReg r v).out = s.out := rfl
@[simp] theorem setReg_inInts : (s.setReg r v).inInts = s.inInts := rfl
@[simp] theorem setReg_inChars : (s.setReg r v).inChars = s.inChars := rfl
@[simp] theorem setReg_started : (s.setReg r v).started = s.started := rfl

@[simp] theorem markStarted_reg : s.markStarted.reg r = s.reg r := rfl
@[simp] theorem markStarted_mem : s.markStarted.mem = s.mem := rfl
@[simp] theorem markStarted_active : s.markStarted.active = s.active := rfl
@[simp] theorem markStarted_fault : s.markStarted.fault = s.fault := rfl
@[simp] theorem markStarted_out : s.markStarted.out = s.out := rfl
@[simp] theorem markStarted_inInts : s.markStarted.inInts = s.inInts := rfl
@[simp] theorem markStarted_inChars : s.markStarted.inChars = s.inChars := rfl
@[simp] theorem markStarted_started : s.markStarted.started = true := rfl

@[simp] theorem raise_regs : (s.raise c).regs = s.regs := rfl
@[simp] theorem raise_reg : (s.raise c).reg r = s.reg r := rfl
@[simp] theorem raise_mem : (s.raise c).mem = s.mem := rfl
@[simp] theorem raise_active : (s.raise c).active = false := rfl
@[simp] theorem raise_fault : (s.raise c).fault = some { cause := c, addr := s.reg Reg.pc } := rfl
@[simp] theorem raise_out : (s.raise c).out = s.out := rfl
@[simp] theorem raise_inInts : (s.raise c).inInts = s.inInts := rfl
@[simp] theorem raise_inChars : (s.raise c).inChars = s.inChars := rfl
@[simp] theorem raise_started : (s.raise c).started = true := rfl

@[simp] theorem emit_reg : (s.emit e).reg r = s.reg r := rfl
@[simp] theorem emit_mem : (s.emit e).mem = s.mem := rfl
@[simp] theorem emit_active : (s.emit e).active = s.active := rfl
@[simp] theorem emit_fault : (s.emit e).fault = s.fault := rfl
@[simp] theorem emit_out : (s.emit e).out = s.out ++ [e] := rfl
@[simp] theorem emit_inInts : (s.emit e).inInts = s.inInts := rfl
@[simp] theorem emit_inChars : (s.emit e).inChars = s.inChars := rfl
@[simp] theorem emit_started : (s.emit e).started = s.started := rfl

@[simp] theorem reg_with_mem : State.reg { s with mem := m } r = s.reg r := rfl
@[simp] theorem reg_with_active (b : Bool) : State.reg { s with active := b } r = s.reg r := rfl
@[simp] theorem reg_with_inInts (l : List Word) : State.reg { s with inInts := l } r = s.reg r := rfl
@[simp] theorem reg_with_inChars (l : List Half) : State.reg { s with inChars := l } r = s.reg r := rfl

@[simp] theorem sp_ne_pc : Reg.sp ≠ Reg.pc := by decide
@[simp] theorem pc_ne_sp : Reg.pc ≠ Reg.sp := by decide
@[simp] theorem rs_ne_pc : Reg.rs ≠ Reg.pc := by decide
@[simp] theorem pc_ne_rs : Reg.pc ≠ Reg.rs := by decide
@[simp] theorem rs_ne_sp : Reg.rs ≠ Reg.sp := by decide
@[simp] theorem sp_ne_rs : Reg.sp ≠ Reg.rs := by decide

/-- A register after a write of one. -/
@[simp] theorem reg_setReg : (s.setReg r v).reg q = if q = r then v else s.reg q := by
  simp only [State.reg, State.setReg, Vector.getElem_set, Fin.ext_iff, eq_comm]

@[simp] theorem setRegs_nil : s.setRegs [] = s := rfl
@[simp] theorem setRegs_cons : s.setRegs ((r, v) :: ws) = (s.setReg r v).setRegs ws := rfl

/-- The writes of an instruction touch registers only. -/
theorem setRegs_frame : (s.setRegs ws).mem = s.mem ∧ (s.setRegs ws).active = s.active ∧
    (s.setRegs ws).fault = s.fault ∧ (s.setRegs ws).out = s.out ∧ (s.setRegs ws).inInts = s.inInts ∧
    (s.setRegs ws).inChars = s.inChars := by
  induction ws generalizing s with
  | nil => simp
  | cons w ws ih => obtain ⟨r, v⟩ := w; simpa using ih (s.setReg r v)

/-- The end of an instruction touches registers, and the record that a step was taken, only. -/
theorem retire_frame : (s.retire len ws).mem = s.mem ∧ (s.retire len ws).active = s.active ∧
    (s.retire len ws).fault = s.fault ∧ (s.retire len ws).out = s.out ∧ (s.retire len ws).inInts = s.inInts ∧
    (s.retire len ws).inChars = s.inChars := by
  unfold State.retire
  split <;> simpa using setRegs_frame s ws

@[simp] theorem retire_started : (s.retire len ws).started = true := by unfold State.retire; split <;> rfl
@[simp] theorem retire_mem : (s.retire len ws).mem = s.mem := (retire_frame s len ws).1
@[simp] theorem retire_active : (s.retire len ws).active = s.active := (retire_frame s len ws).2.1
@[simp] theorem retire_fault : (s.retire len ws).fault = s.fault := (retire_frame s len ws).2.2.1
@[simp] theorem retire_out : (s.retire len ws).out = s.out := (retire_frame s len ws).2.2.2.1
@[simp] theorem retire_inInts : (s.retire len ws).inInts = s.inInts := (retire_frame s len ws).2.2.2.2.1
@[simp] theorem retire_inChars : (s.retire len ws).inChars = s.inChars := (retire_frame s len ws).2.2.2.2.2

end Sys2Proof.Machine
end

