-- ==== Sys2Proof/Laws/Ops.lean ====
section
/-! SUPPORT. What each shared operation over registers can do, said once. -/

namespace Sys2Proof.Machine

variable {s t : State} {c : Cause} {d r : Reg} {v w : Word} {len : Nat}

/-- The pc's advance as bit-vector addition (40_cycle.md R84). -/
theorem wrap32_s32_add (x : Word) (n : Nat) : wrap32 (s32 x + n) = x + BitVec.ofNat 32 n := by
  apply BitVec.eq_of_toInt_eq
  simp [wrap32, s32, BitVec.toInt_add, BitVec.toInt_ofNat']

/-- `wrap32` undoes `s32`. -/
@[simp] theorem wrap32_s32 (x : Word) : wrap32 (s32 x) = x := by simp [wrap32, s32]

/-- `wrap32 n` is congruent to `n` and lies in the i32 range. -/
@[simp] theorem s32_wrap32 (n : Int) : s32 (wrap32 n) = n.bmod (2 ^ 32) := by simp [wrap32, s32]

/-- An instruction that writes no register. -/
theorem retire_nil (s : State) (len : Nat) :
    s.retire len [] = (s.setReg Reg.pc (s.reg Reg.pc + BitVec.ofNat 32 len)).markStarted := by
  simp [State.retire, wrap32_s32_add]

/-- An instruction that writes one register: it writes it, and the pc advances unless it is the pc. -/
theorem retire_single (s : State) (len : Nat) (d : Reg) (v : Word) :
    s.retire len [(d, v)] =
      (if d = Reg.pc then s.setReg d v
        else (s.setReg d v).setReg Reg.pc (s.reg Reg.pc + BitVec.ofNat 32 len)).markStarted := by
  by_cases h : d = Reg.pc <;> simp [State.retire, wrap32_s32_add, h]

/-- The state after an instruction that writes no register. -/
theorem retire_nil_writes (s : State) (len : Nat) : WritesNoReg len s (s.retire len []) := by
  rw [retire_nil]
  constructor
  · simp [Advanced]
  · intro r hr; simp [hr]

/-- The state after an instruction that writes one register. -/
theorem retire_single_writes (s : State) (len : Nat) (d : Reg) (v : Word) :
    WritesReg d v len s (s.retire len [(d, v)]) := by
  rw [retire_single]
  by_cases h : d = Reg.pc
  · subst h
    refine ⟨by simp, by simp, fun r h1 _ => by simp [h1]⟩
  · rw [if_neg h]
    refine ⟨by simp [h], fun _ => by simp [Advanced], fun r h1 h2 => by simp [h1, h2]⟩

/-- A register that no write names, and that is not the pc, is unchanged. -/
theorem setRegs_reg (s : State) (ws : List (Reg × Word)) (r : Reg) (h : ∀ w ∈ ws, w.1 ≠ r) :
    (s.setRegs ws).reg r = s.reg r := by
  induction ws generalizing s with
  | nil => rfl
  | cons w ws ih =>
    obtain ⟨d, v⟩ := w
    rw [setRegs_cons, ih _ fun w hw => h w (List.mem_cons_of_mem _ hw), reg_setReg,
      if_neg fun e => h (d, v) List.mem_cons_self e.symm]

/-- A register that no write names, and that is not the pc, is unchanged by the end of the instruction. -/
theorem retire_reg (s : State) (len : Nat) (ws : List (Reg × Word)) (r : Reg) (h : ∀ w ∈ ws, w.1 ≠ r)
    (hp : r ≠ Reg.pc) : (s.retire len ws).reg r = s.reg r := by
  unfold State.retire
  split
  · exact setRegs_reg s ws r h
  · rw [markStarted_reg, reg_setReg, if_neg hp]; exact setRegs_reg s ws r h

/-- What an instruction with one check can answer: its own state, or the runtime fault. -/
theorem orRaise_next {o : Option State} :
    orRaise s c o = .next t ↔ o = some t ∨ (o = none ∧ t = s.raise c) := by
  cases o <;> simp [orRaise, eq_comm]

/-- Taking a runtime fault changes the fault record and the active flag alone (40_cycle.md R86), and the model's own
record that a step was taken. -/
theorem raise_tookFault (s : State) (c : Cause) : TookFault c s (s.raise c) :=
  ⟨rfl, rfl, rfl, fun _ => rfl, ⟨rfl, fun _ => rfl⟩, rfl, rfl, rfl⟩

end Sys2Proof.Machine
end

