-- ==== Sys2Proof/Laws/PerInstr.lean ====
section
/-! SUPPORT. What holds of every instruction as syntax, said once for each constructor. -/

namespace Sys2Proof

/-- The shape of an instruction's encoding (30_encoding.md R60, R66, R70): it starts with the opcode byte, the opcode
is in the map and fixes the length, and the name the opcode table gives it is well formed. -/
def Laws.EncodingShape.Statement (i : Instr) : Prop :=
  (encode i).head? = some i.opcode ∧ (category i.opcode).isSome = true ∧ (encode i).length = i.length ∧
    i.canonical.wellFormed = true

theorem Laws.EncodingShape.nop : Laws.EncodingShape.Statement (.nop) :=
  ⟨rfl, rfl, rfl, by simp [Instr.wellFormed, Instr.canonical]⟩

theorem Laws.EncodingShape.input : Laws.EncodingShape.Statement (.input) :=
  ⟨rfl, rfl, rfl, by simp [Instr.wellFormed, Instr.canonical]⟩

theorem Laws.EncodingShape.inputChar : Laws.EncodingShape.Statement (.inputChar) :=
  ⟨rfl, rfl, rfl, by simp [Instr.wellFormed, Instr.canonical]⟩

theorem Laws.EncodingShape.add (a b c : Reg) : Laws.EncodingShape.Statement (.add a b c) :=
  ⟨rfl, rfl, rfl, by simp [Instr.wellFormed, Instr.canonical]⟩

theorem Laws.EncodingShape.subt (a b c : Reg) : Laws.EncodingShape.Statement (.subt a b c) :=
  ⟨rfl, rfl, rfl, by simp [Instr.wellFormed, Instr.canonical]⟩

theorem Laws.EncodingShape.mult (a b c : Reg) : Laws.EncodingShape.Statement (.mult a b c) :=
  ⟨rfl, rfl, rfl, by simp [Instr.wellFormed, Instr.canonical]⟩

theorem Laws.EncodingShape.div (a b c : Reg) : Laws.EncodingShape.Statement (.div a b c) :=
  ⟨rfl, rfl, rfl, by simp [Instr.wellFormed, Instr.canonical]⟩

theorem Laws.EncodingShape.neg (a b : Reg) : Laws.EncodingShape.Statement (.neg a b) :=
  ⟨rfl, rfl, rfl, by simp [Instr.wellFormed, Instr.canonical]⟩

theorem Laws.EncodingShape.and (a b c : Reg) : Laws.EncodingShape.Statement (.and a b c) :=
  ⟨rfl, rfl, rfl, by simp [Instr.wellFormed, Instr.canonical]⟩

theorem Laws.EncodingShape.or (a b c : Reg) : Laws.EncodingShape.Statement (.or a b c) :=
  ⟨rfl, rfl, rfl, by simp [Instr.wellFormed, Instr.canonical]⟩

theorem Laws.EncodingShape.lshift (a b : Reg) : Laws.EncodingShape.Statement (.lshift a b) :=
  ⟨rfl, rfl, rfl, by simp [Instr.wellFormed, Instr.canonical]⟩

theorem Laws.EncodingShape.rshift (a b : Reg) : Laws.EncodingShape.Statement (.rshift a b) :=
  ⟨rfl, rfl, rfl, by simp [Instr.wellFormed, Instr.canonical]⟩

theorem Laws.EncodingShape.gt (a b c : Reg) : Laws.EncodingShape.Statement (.gt a b c) :=
  ⟨rfl, rfl, rfl, by simp [Instr.wellFormed, Instr.canonical]⟩

theorem Laws.EncodingShape.lt (a b c : Reg) : Laws.EncodingShape.Statement (.lt a b c) :=
  ⟨rfl, rfl, rfl, by simp [Instr.wellFormed, Instr.canonical]⟩

theorem Laws.EncodingShape.eq (a b c : Reg) : Laws.EncodingShape.Statement (.eq a b c) :=
  ⟨rfl, rfl, rfl, by simp [Instr.wellFormed, Instr.canonical]⟩

theorem Laws.EncodingShape.branch (a b : Reg) : Laws.EncodingShape.Statement (.branch a b) :=
  ⟨rfl, rfl, rfl, by simp [Instr.wellFormed, Instr.canonical]⟩

theorem Laws.EncodingShape.jump (a : Reg) : Laws.EncodingShape.Statement (.jump a) :=
  ⟨rfl, rfl, rfl, by simp [Instr.wellFormed, Instr.canonical]⟩

theorem Laws.EncodingShape.copy (a b : Reg) : Laws.EncodingShape.Statement (.copy a b) :=
  ⟨rfl, rfl, rfl, by simp [Instr.wellFormed, Instr.canonical]⟩

theorem Laws.EncodingShape.output (a : Reg) : Laws.EncodingShape.Statement (.output a) :=
  ⟨rfl, rfl, rfl, by simp [Instr.wellFormed, Instr.canonical]⟩

theorem Laws.EncodingShape.outputChar (a : Reg) : Laws.EncodingShape.Statement (.outputChar a) :=
  ⟨rfl, rfl, rfl, by simp [Instr.wellFormed, Instr.canonical]⟩

theorem Laws.EncodingShape.pushStk (a : Reg) : Laws.EncodingShape.Statement (.pushStk a) :=
  ⟨rfl, rfl, rfl, by simp [Instr.wellFormed, Instr.canonical]⟩

theorem Laws.EncodingShape.popStk (a : Reg) : Laws.EncodingShape.Statement (.popStk a) :=
  ⟨rfl, rfl, rfl, by simp [Instr.wellFormed, Instr.canonical]⟩

theorem Laws.EncodingShape.load (a b : Reg) : Laws.EncodingShape.Statement (.load a b) :=
  ⟨rfl, rfl, rfl, by simp [Instr.wellFormed, Instr.canonical]⟩

theorem Laws.EncodingShape.loadByte (a b : Reg) : Laws.EncodingShape.Statement (.loadByte a b) :=
  ⟨rfl, rfl, rfl, by simp [Instr.wellFormed, Instr.canonical]⟩

theorem Laws.EncodingShape.store (a b : Reg) : Laws.EncodingShape.Statement (.store a b) :=
  ⟨rfl, rfl, rfl, by simp [Instr.wellFormed, Instr.canonical]⟩

theorem Laws.EncodingShape.storeByte (a b : Reg) : Laws.EncodingShape.Statement (.storeByte a b) :=
  ⟨rfl, rfl, rfl, by simp [Instr.wellFormed, Instr.canonical]⟩

theorem Laws.EncodingShape.outputStr (a : Reg) : Laws.EncodingShape.Statement (.outputStr a) :=
  ⟨rfl, rfl, rfl, by simp [Instr.wellFormed, Instr.canonical]⟩

theorem Laws.EncodingShape.coreDump (a b : Reg) : Laws.EncodingShape.Statement (.coreDump a b) :=
  ⟨rfl, rfl, rfl, by simp [Instr.wellFormed, Instr.canonical]⟩

theorem Laws.EncodingShape.loadLit (lit : Word) : Laws.EncodingShape.Statement (.loadLit lit) :=
  ⟨rfl, rfl, rfl, by simp [Instr.wellFormed, Instr.canonical]⟩

theorem Laws.EncodingShape.jumpLit (lit : Word) : Laws.EncodingShape.Statement (.jumpLit lit) :=
  ⟨rfl, rfl, rfl, by simp [Instr.wellFormed, Instr.canonical]⟩

theorem Laws.EncodingShape.jumpLabel (lit : Word) : Laws.EncodingShape.Statement (.jumpLabel lit) :=
  ⟨rfl, rfl, rfl, by simp [Instr.wellFormed, Instr.canonical]⟩

theorem Laws.EncodingShape.branchLit (a : Reg) (lit : Word) : Laws.EncodingShape.Statement (.branchLit a lit) :=
  ⟨rfl, rfl, rfl, by simp [Instr.wellFormed, Instr.canonical]⟩

theorem Laws.EncodingShape.set (a : Reg) (lit : Word) : Laws.EncodingShape.Statement (.set a lit) :=
  ⟨rfl, rfl, rfl, by simp [Instr.wellFormed, Instr.canonical]⟩

theorem Laws.EncodingShape.halt : Laws.EncodingShape.Statement (.halt) :=
  ⟨rfl, rfl, rfl, by simp [Instr.wellFormed, Instr.canonical]⟩

/-- An instruction takes as many bytes as its opcode says. -/
@[simp] theorem encode_length (i : Instr) : (encode i).length = i.length := by cases i <;> rfl

/-- An instruction is 1 to 6 bytes long (R60). -/
theorem length_bounds (i : Instr) : 1 ≤ i.length ∧ i.length ≤ 6 := by
  rw [← encode_length]
  cases i <;> simp [encode, Instr.operands]

/-- A second spelling has the same words as the first (R75). -/
@[simp] theorem encode_canonical (i : Instr) : encode i.canonical = encode i := by cases i <;> rfl

end Sys2Proof
end

