-- ==== Sys2Proof/Laws/Step.lean ====
section
/-! SUPPORT. What a step can do, said once. -/

namespace Sys2Proof.Machine

variable {s t : State}

/-- A step that goes on: the engine was running, and either the fetch faulted or the fetched instruction ran. -/
theorem step_next (h : step s = .next t) :
    s.fault = none ∧ s.active = true ∧
      ((∃ c, s.fetch = .error c ∧ t = s.raise c) ∨ ∃ i, s.fetch = .ok i ∧ exec i s = .next t) := by
  unfold step at h
  split at h
  · cases h
  · rename_i hf
    split at h
    · cases h
    · rename_i ha
      refine ⟨by simpa using hf, by simpa using ha, ?_⟩
      split at h
      · rename_i c hc
        cases h
        exact Or.inl ⟨c, hc, rfl⟩
      · rename_i i hi
        exact Or.inr ⟨i, hi, h⟩

/-- An enabled step whose fetch faults takes that fault. -/
theorem step_fetch_error {c : Cause} (hf : s.fault = none) (ha : s.active = true) (h : s.fetch = .error c) :
    step s = .next (s.raise c) := by
  simp [step, hf, ha, h]

/-- A conditional transfer, taken. -/
theorem branchTo_taken (s : State) (len : Nat) (target : Word) :
    branchTo s len true target = .next (s.setReg Reg.pc target).markStarted := by
  simp [branchTo, retire_single]

/-- A conditional transfer, not taken. -/
theorem branchTo_not_taken (s : State) (len : Nat) (target : Word) :
    branchTo s len false target = 
      .next (s.setReg Reg.pc (s.reg Reg.pc + BitVec.ofNat 32 len)).markStarted := by
  simp [branchTo, retire_nil]

/-- The status of a state by its record, its flag and what it waits for (70_reset_and_hazards.md R223). -/
theorem status_running_iff : s.status = .running ↔
    s.fault = none ∧ s.active = true ∧ s.awaitsInt = false ∧ s.awaitsChar = false := by
  unfold State.status
  cases hf : s.fault with
  | some f => simp
  | none =>
    cases ha : s.active with
    | false => simp
    | true => cases hi : s.awaitsInt <;> cases hc : s.awaitsChar <;> simp

end Sys2Proof.Machine
end

