-- ==== Sys2Proof/Laws/Run.lean ====
section
/-! SUPPORT. What one moment of a run can do, said once; and that a run does not undo its first step. -/

namespace Sys2Proof.Machine

variable {s t : State} {c : Console} {n : Nat}

@[simp] theorem run_zero (s : State) (c : Console) : s.run c 0 = s := rfl
@[simp] theorem run_succ (s : State) (c : Console) (n : Nat) : s.run c (n + 1) = (s.run c n).tick c n := rfl

/-- A supplied integer: the engine was blocked in INPUT, and nothing but the queue changes. -/
theorem supplyInt_some {v : Word} (h : s.supplyInt v = some t) :
    s.awaitsInt = true ∧ t = { s with inInts := [v] } := by
  unfold State.supplyInt at h
  split at h
  · exact ⟨‹_›, (Option.some.inj h).symm⟩
  · cases h

/-- A supplied character code: the engine was blocked in INPUT_CHAR, and nothing but the queue changes. -/
theorem supplyChar_some {v : Half} (h : s.supplyChar v = some t) :
    s.awaitsChar = true ∧ t = { s with inChars := [v] } := by
  unfold State.supplyChar at h
  split at h
  · exact ⟨‹_›, (Option.some.inj h).symm⟩
  · cases h

/-- What placing a string can do: no step was taken, the string fits, and nothing but memory changes. -/
theorem placeString_some {a : Int} {text : List Half} :
    s.placeString a text = some t ↔
      s.started = false ∧ ∃ m, s.mem.storeString a text = some m ∧ t = { s with mem := m } := by
  unfold State.placeString
  cases s.started <;> simp [eq_comm]

/-- What the host passes on in a run: an integer or a character code, to a read that is blocked on it. -/
theorem supply_some (h : s.supply c n = some t) :
    (∃ v, c.int n = some v ∧ s.awaitsInt = true ∧ t = { s with inInts := [v] }) ∨
    (∃ v, c.char n = some v ∧ s.awaitsChar = true ∧ t = { s with inChars := [v] }) := by
  unfold State.supply at h
  split at h
  · obtain ⟨v, hv, h⟩ := Option.bind_eq_some_iff.1 h
    exact .inl ⟨v, hv, supplyInt_some h⟩
  · obtain ⟨v, hv, h⟩ := Option.bind_eq_some_iff.1 h
    exact .inr ⟨v, hv, supplyChar_some h⟩

/-- One moment of a run: a step, an answer to a blocked read, or nothing. -/
theorem tick_cases (s : State) (c : Console) (n : Nat) :
    step s = .next (s.tick c n) ∨
    ((∀ t, step s ≠ .next t) ∧ (s.supply c n = some (s.tick c n) ∨ (s.supply c n = none ∧ s.tick c n = s))) ∨
    ((∃ r, step s = .refused r) ∧ s.tick c n = s) := by
  unfold State.tick
  cases h : step s with
  | next t => exact .inl rfl
  | fault r => cases hs : s.supply c n <;> simp
  | refused r => simp

/-- An instruction with one check notes that a step was taken if its own state does. -/
theorem orRaise_started {o : Option State} {k : Cause} (h : orRaise s k o = .next t)
    (ho : ∀ u, o = some u → u.started = true) : t.started = true := by
  obtain h | ⟨-, rfl⟩ := orRaise_next.1 h
  · exact ho t h
  · rfl

/-- Every instruction that goes on notes that a step was taken. -/
theorem exec_started {i : Instr} (h : exec i s = .next t) : t.started = true := by
  cases i
  case input => simp only [exec, execInput] at h; split at h <;> cases h; simp
  case inputChar => simp only [exec, execInputChar] at h; split at h <;> cases h; simp
  case div => refine orRaise_started h fun u hu => ?_; split at hu <;> cases hu; simp
  all_goals first
    | exact orRaise_started h fun u hu => by obtain ⟨_, -, rfl⟩ := Option.map_eq_some_iff.1 hu; simp
    | (cases h; simp)

/-- After a step, one was taken (R222). -/
theorem step_started (h : step s = .next t) : t.started = true := by
  obtain ⟨-, -, ⟨c, -, rfl⟩ | ⟨i, -, h⟩⟩ := step_next h
  · rfl
  · exact exec_started h

/-- No moment of a run undoes a first step. -/
theorem tick_started (h : s.started = true) : (s.tick c n).started = true := by
  obtain hs | ⟨-, hs | ⟨-, hs⟩⟩ | ⟨-, hs⟩ := tick_cases s c n
  · exact step_started hs
  · obtain ⟨_, -, -, e⟩ | ⟨_, -, -, e⟩ := supply_some hs <;> rw [e] <;> exact h
  all_goals rw [hs]; exact h

/-- A run does not undo a first step. -/
theorem run_started (h : s.started = true) : (s.run c n).started = true := by
  induction n with
  | zero => exact h
  | succ n ih => exact tick_started ih

end Sys2Proof.Machine
end

