-- ==== Sys2Proof/Tests/Slice0.lean ====
section
/-! SUPPORT. Tests on fixed values. The expected results are the spec's: the worked examples and vectors of
95_test_vectors.md, or the encodings of 30_encoding.md R61 and R65 written out byte by byte. -/

namespace Sys2Proof.Tests

open Sys2Proof.Machine

/-- A reset state with some registers written and some bytes placed. -/
def st (regs : List (Reg × Word)) (a : Nat := 0) (bs : List Byte := []) : State :=
  { State.reset.setRegs regs with mem := State.reset.mem.setBytes a bs }

/-- What a next state holds. -/
def ask {α : Type} (o : Host.Outcome State Fault Refusal) (f : State → α) : Option α :=
  match o with
  | .next t => some (f t)
  | .fault _ => none
  | .refused _ => none

/-- Why a step has no next state. -/
def stop (o : Host.Outcome State Fault Refusal) : Option Fault :=
  match o with
  | .next _ => none
  | .fault r => some r
  | .refused _ => none

/-- The instruction of a byte string. -/
def instr (bs : List Byte) : Option Instr :=
  match decode bs with
  | .ok (i, _) => some i
  | .error _ => none

/-- The reason a byte string is none. -/
def bad (bs : List Byte) : Option DecodeError :=
  match decode bs with
  | .ok _ => none
  | .error e => some e

/-! ### Well-formedness: each check refuses an ill-formed term -/

theorem test_field_20_refused : fieldWellFormed 20 = false := by decide
theorem test_field_19_accepted : fieldWellFormed 19 = true := by decide
theorem test_alias_not_decodable : (Instr.jumpLabel 15).wellFormed = false := by decide
theorem test_jumpLit_wellFormed : (Instr.jumpLit 15).wellFormed = true := by decide
theorem test_memSize_0_refused : memSizeWellFormed 0 = false := by decide
theorem test_memSize_too_big_refused : memSizeWellFormed (2 ^ 31) = false := by decide
theorem test_image_too_long_refused : imageFits 2 [0x00, 0x00, 0xFF] = false := by decide
theorem test_memory_unsorted_refused : Memory.wf { size := 8, cells := [(3, 1), (2, 1)] } = false := by decide
theorem test_memory_zero_listed_refused : Memory.wf { size := 8, cells := [(3, 0)] } = false := by decide
theorem test_memory_outside_refused : Memory.wf { size := 8, cells := [(8, 1)] } = false := by decide

/-! ### Decoding: a word of every constructor, written out from R61 and R65 -/

theorem test_decode_nop : instr [0x00] = some (.nop) := by decide
theorem test_decode_input : instr [0x01] = some (.input) := by decide
theorem test_decode_inputChar : instr [0x02] = some (.inputChar) := by decide
theorem test_decode_add : instr [0x03, 0x01, 0x02, 0x03] = some (.add 1 2 3) := by decide
theorem test_decode_subt : instr [0x04, 0x05, 0x07, 0x08] = some (.subt 5 7 8) := by decide
theorem test_decode_mult : instr [0x05, 0x06, 0x02, 0x07] = some (.mult 6 2 7) := by decide
theorem test_decode_div : instr [0x06, 0x05, 0x02, 0x06] = some (.div 5 2 6) := by decide
theorem test_decode_neg : instr [0x07, 0x01, 0x02] = some (.neg 1 2) := by decide
theorem test_decode_and : instr [0x08, 0x00, 0x0F, 0x10] = some (.and 0 15 Reg.ra) := by decide
theorem test_decode_or : instr [0x09, 0x11, 0x12, 0x13] = some (.or Reg.sp Reg.pc Reg.rs) := by decide
theorem test_decode_lshift : instr [0x0A, 0x01, 0x02] = some (.lshift 1 2) := by decide
theorem test_decode_rshift : instr [0x0B, 0x03, 0x04] = some (.rshift 3 4) := by decide
theorem test_decode_gt : instr [0x0C, 0x01, 0x02, 0x03] = some (.gt 1 2 3) := by decide
theorem test_decode_lt : instr [0x0D, 0x03, 0x02, 0x01] = some (.lt 3 2 1) := by decide
theorem test_decode_eq : instr [0x0E, 0x01, 0x03, 0x02] = some (.eq 1 3 2) := by decide
theorem test_decode_branch : instr [0x0F, 0x01, 0x02] = some (.branch 1 2) := by decide
theorem test_decode_jump : instr [0x10, 0x10] = some (.jump Reg.ra) := by decide
theorem test_decode_copy : instr [0x11, 0x12, 0x01] = some (.copy Reg.pc 1) := by decide
theorem test_decode_output : instr [0x12, 0x05] = some (.output 5) := by decide
theorem test_decode_outputChar : instr [0x13, 0x06] = some (.outputChar 6) := by decide
theorem test_decode_pushStk : instr [0x14, 0x01] = some (.pushStk 1) := by decide
theorem test_decode_popStk : instr [0x15, 0x06] = some (.popStk 6) := by decide
theorem test_decode_load : instr [0x17, 0x03, 0x09] = some (.load 3 9) := by decide
theorem test_decode_loadByte : instr [0x18, 0x03, 0x04] = some (.loadByte 3 4) := by decide
theorem test_decode_store : instr [0x19, 0x03, 0x01] = some (.store 3 1) := by decide
theorem test_decode_storeByte : instr [0x1A, 0x03, 0x02] = some (.storeByte 3 2) := by decide
theorem test_decode_outputStr : instr [0x1B, 0x02] = some (.outputStr 2) := by decide
theorem test_decode_coreDump : instr [0x1C, 0x01, 0x02] = some (.coreDump 1 2) := by decide
theorem test_decode_loadLit : instr [0x1D, 0x12, 0x34, 0x56, 0x78] = some (.loadLit 0x12345678) := by decide
theorem test_decode_jumpLit : instr [0x1E, 0x00, 0x00, 0x00, 0x0F] = some (.jumpLit 15) := by decide
theorem test_decode_branchLit : instr [0x1F, 0x01, 0x00, 0x00, 0x00, 0x0C] = some (.branchLit 1 12) := by decide
theorem test_decode_set : instr [0x20, 0x13, 0x80, 0x00, 0x00, 0x00] = some (.set Reg.rs 0x80000000) := by decide
theorem test_decode_halt : instr [0xFF] = some (.halt) := by decide

/-- JUMP_LABEL's word is JUMP_LIT's (95_test_vectors.md E3). -/
theorem test_encode_jumpLabel : encode (.jumpLabel 15) = [0x1E, 0x00, 0x00, 0x00, 0x0F] := by decide
theorem test_encode_jumpLit_negative : encode (.jumpLit (-4)) = [0x1E, 0xFF, 0xFF, 0xFF, 0xFC] := by decide
theorem test_encode_set_sp : encode (.set Reg.sp 200) = [0x20, 0x11, 0x00, 0x00, 0x00, 0xC8] := by decide
theorem test_decode_16 : bad [0x16, 0x00] = some .illegalOpcode := by decide
theorem test_decode_21 : bad [0x21] = some .illegalOpcode := by decide
theorem test_decode_FE : bad [0xFE] = some .illegalOpcode := by decide
theorem test_decode_bad_register : bad [0x03, 0x01, 0x02, 0x14] = some .badRegister := by decide
theorem test_decode_truncated_before_register : bad [0x03, 0x20] = some .truncated := by decide
theorem test_table_word : decodeTableWord 32 0x05130503 = some (.add 5 Reg.rs 5) := by decide
theorem test_fetch_word_runs :
    ask (step (State.reset.withFetchWord 48 0x050000000120)) (fun t => (t.reg 1, t.reg Reg.pc)) = some (5, 6) := by
  decide

/-! ### Arithmetic (95_test_vectors.md 2.2) -/

theorem test_add_wraps : ask (exec (.add 1 2 3) (st [(1, 2147483647), (2, 1)])) (fun t => (t.reg 3, t.reg Reg.pc)) = some (-2147483648, 4) := by
  decide
/-- `ADD $1 $2 $pc` at 0: the result is the next pc. -/
theorem test_add_to_pc : ask (exec (.add 1 2 Reg.pc) (st [(1, 10), (2, 5)])) (fun t => t.reg Reg.pc) = some 15 := by decide
theorem test_subt_wraps : ask (exec (.subt 1 2 3) (st [(1, -2147483648), (2, 1)])) (fun t => (t.reg 3, t.reg Reg.pc)) = some (2147483647, 4) := by
  decide
theorem test_subt_order : ask (exec (.subt 1 2 3) (st [(1, 3), (2, 5)])) (fun t => (t.reg 3, t.reg Reg.pc)) = some (-2, 4) := by
  decide
theorem test_mult_low_bits : ask (exec (.mult 1 2 3) (st [(1, 46341), (2, 46341)])) (fun t => (t.reg 3, t.reg Reg.pc)) = some (-2147479015, 4) := by
  decide
theorem test_mult_min : ask (exec (.mult 1 2 3) (st [(1, -2147483648), (2, -1)])) (fun t => (t.reg 3, t.reg Reg.pc)) = some (-2147483648, 4) := by
  decide
theorem test_div_truncates : ask (exec (.div 1 2 3) (st [(1, -7), (2, 2)])) (fun t => (t.reg 3, t.reg Reg.pc)) = some (-3, 4) := by
  decide
theorem test_div_min : ask (exec (.div 1 2 3) (st [(1, -2147483648), (2, -1)])) (fun t => (t.reg 3, t.reg Reg.pc)) = some (-2147483648, 4) := by
  decide
theorem test_neg_complements : ask (exec (.neg 1 2) (st [(1, 5)])) (fun t => (t.reg 2, t.reg Reg.pc)) = some (-6, 3) := by decide
theorem test_and_bits : ask (exec (.and 1 2 3) (st [(1, 0x0F0F), (2, 0x00FF)])) (fun t => (t.reg 3, t.reg Reg.pc)) = some (0x000F, 4) := by
  decide
theorem test_or_bits : ask (exec (.or 1 2 3) (st [(1, 0x0F00), (2, 0x00F0)])) (fun t => (t.reg 3, t.reg Reg.pc)) = some (0x0FF0, 4) := by
  decide
theorem test_lshift_sign : ask (exec (.lshift 1 2) (st [(1, 0x40000000)])) (fun t => (t.reg 2, t.reg Reg.pc)) = some (-2147483648, 3) := by decide
theorem test_lshift_drops : ask (exec (.lshift 1 2) (st [(1, -2147483648)])) (fun t => (t.reg 2, t.reg Reg.pc)) = some (0, 3) := by decide
theorem test_rshift_floors : ask (exec (.rshift 1 2) (st [(1, -7)])) (fun t => (t.reg 2, t.reg Reg.pc)) = some (-4, 3) := by decide
theorem test_rshift_sign : ask (exec (.rshift 1 2) (st [(1, -2147483648)])) (fun t => (t.reg 2, t.reg Reg.pc)) = some (-1073741824, 3) := by decide
theorem test_gt_signed : ask (exec (.gt 1 2 3) (st [(1, 0), (2, -2147483648)])) (fun t => (t.reg 3, t.reg Reg.pc)) = some (1, 4) := by
  decide
theorem test_gt_equal : ask (exec (.gt 1 2 3) (st [(1, 5), (2, 5)])) (fun t => (t.reg 3, t.reg Reg.pc)) = some (0, 4) := by
  decide
theorem test_lt_signed : ask (exec (.lt 1 2 3) (st [(1, -1), (2, 0)])) (fun t => (t.reg 3, t.reg Reg.pc)) = some (1, 4) := by
  decide
theorem test_lt_equal : ask (exec (.lt 1 2 3) (st [(1, 5), (2, 5)])) (fun t => (t.reg 3, t.reg Reg.pc)) = some (0, 4) := by
  decide
theorem test_eq_equal : ask (exec (.eq 1 2 3) (st [(1, 9), (2, 9)])) (fun t => (t.reg 3, t.reg Reg.pc)) = some (1, 4) := by
  decide
theorem test_eq_differs : ask (exec (.eq 1 2 3) (st [(1, 9), (2, -9)])) (fun t => (t.reg 3, t.reg Reg.pc)) = some (0, 4) := by
  decide
/-- `COPY $pc $1` at 40 reads `cur`. -/
theorem test_copy_pc : ask (exec (.copy Reg.pc 1) (st [(Reg.pc, 40)])) (fun t => (t.reg 1, t.reg Reg.pc)) = some (40, 43) := by
  decide
theorem test_loadLit : ask (exec (.loadLit 32) (st [])) (fun t => (t.reg Reg.rs, t.reg Reg.pc)) = some (32, 5) := by decide
theorem test_set_pc : ask (exec (.set Reg.pc 100) (st [])) (fun t => t.reg Reg.pc) = some 100 := by decide

/-! ### Control (2.3) -/

theorem test_nop : ask (exec .nop (st [(Reg.pc, 15)])) (fun t => t.reg Reg.pc) = some 16 := by decide
theorem test_branch_taken_negative :
    ask (exec (.branch 1 2) (st [(Reg.pc, 10), (1, -1), (2, 50)])) (fun t => t.reg Reg.pc) = some 50 := by decide
theorem test_branch_not_taken :
    ask (exec (.branch 1 2) (st [(Reg.pc, 10), (2, 50)])) (fun t => t.reg Reg.pc) = some 13 := by decide
theorem test_jump_negative : ask (exec (.jump 1) (st [(1, -5)])) (fun t => t.reg Reg.pc) = some (-5) := by decide
theorem test_jump_self : ask (exec (.jump Reg.pc) (st [(Reg.pc, 20)])) (fun t => t.reg Reg.pc) = some 20 := by decide
theorem test_jumpLit : ask (exec (.jumpLit 15) (st [(Reg.pc, 18)])) (fun t => t.reg Reg.pc) = some 15 := by decide
theorem test_jumpLabel : ask (exec (.jumpLabel 15) (st [(Reg.pc, 18)])) (fun t => t.reg Reg.pc) = some 15 := by decide
theorem test_branchLit_taken :
    ask (exec (.branchLit 1 12) (st [(Reg.pc, 18), (1, 2)])) (fun t => t.reg Reg.pc) = some 12 := by decide
theorem test_branchLit_not_taken :
    ask (exec (.branchLit 1 12) (st [(Reg.pc, 18)])) (fun t => t.reg Reg.pc) = some 24 := by decide
theorem test_halt :
    ask (exec .halt (st [(Reg.pc, 24)])) (fun t => (t.active, t.reg Reg.pc, t.fault)) = some (false, 25, none) := by decide

/-! ### Stack, loads, stores (2.4) -/

theorem test_push :
    ask (exec (.pushStk 1) (st [(Reg.sp, 4092), (1, -7)])) (fun t => (t.mem.bytes 4092 4, t.reg Reg.sp)) =
      some ([0xFF, 0xFF, 0xFF, 0xF9], 4096) := by decide
theorem test_push_sp :
    ask (exec (.pushStk Reg.sp) (st [(Reg.sp, 200)])) (fun t => (t.mem.bytes 200 4, t.reg Reg.sp)) =
      some ([0x00, 0x00, 0x00, 0xC8], 204) := by decide
theorem test_pop_sp :
    ask (exec (.popStk Reg.sp) (st [(Reg.sp, 204)] 200 [0x00, 0x00, 0x01, 0x00])) (fun t => t.reg Reg.sp) = some 256 := by
  decide
theorem test_pop_pc :
    ask (exec (.popStk Reg.pc) (st [(Reg.sp, 8)] 4 [0x00, 0x00, 0x00, 0x40])) (fun t => (t.reg Reg.sp, t.reg Reg.pc)) =
      some (4, 64) := by decide
theorem test_load_misaligned :
    ask (exec (.load 3 2) (st [(3, 101)] 100 [0x12, 0x34, 0x56, 0x78])) (fun t => t.reg 2) = some 0x34567800 := by decide
theorem test_load_out_of_range :
    ask (exec (.load 3 2) (st [(3, 4093)])) (fun t => (t.fault, t.active, t.reg Reg.pc)) =
      some (some { cause := .memRange, addr := 0 }, false, 0) := by decide
theorem test_loadByte : ask (exec (.loadByte 3 2) (st [(3, 100)] 100 [0xFF])) (fun t => t.reg 2) = some 255 := by decide
theorem test_loadByte_out_of_range :
    ask (exec (.loadByte 3 2) (st [(3, 4096)])) (fun t => t.fault) =
      some (some { cause := .memRange, addr := 0 }) := by decide
theorem test_store :
    ask (exec (.store 3 1) (st [(3, 100), (1, 0x12345678)])) (fun t => (t.mem.bytes 100 4, t.reg Reg.pc)) =
      some ([0x12, 0x34, 0x56, 0x78], 3) := by decide
theorem test_storeByte :
    ask (exec (.storeByte 3 2) (st [(3, 100), (2, 0x1234)])) (fun t => t.mem.bytes 99 3) =
      some [0x00, 0x34, 0x00] := by decide

/-! ### Console (2.5) -/

theorem test_input :
    ask (exec .input { st [] with inInts := [-12, 7] }) (fun t => (t.reg Reg.rs, t.reg Reg.pc, t.inInts)) =
      some (-12, 1, [7]) := by decide
theorem test_input_blocked : stop (step (st [] 0 [0x01])) = some .consoleBlocked := by decide
theorem test_inputChar :
    ask (exec .inputChar { st [] with inChars := [0xFFFF] }) (fun t => (t.reg Reg.rs, t.reg Reg.pc)) =
      some (65535, 1) := by decide
theorem test_inputChar_blocked : stop (step (st [] 0 [0x02])) = some .consoleBlocked := by decide
theorem test_output : ask (exec (.output 5) (st [(5, -1)])) (fun t => t.out) = some [.outInt (-1)] := by decide
theorem test_outputChar :
    ask (exec (.outputChar 1) (st [(1, 0x00010041)])) (fun t => t.out) = some [.outChar 0x0041] := by decide
theorem test_outputStr :
    ask (exec (.outputStr 1) (st [(1, 300)] 300 [0x00, 0x48, 0x00, 0x69])) (fun t => t.out) =
      some [.outStr [0x48, 0x69]] := by decide
theorem test_outputStr_no_terminator :
    ask (exec (.outputStr 1) (st [(1, 4094)] 4094 [0x00, 0x41])) (fun t => (t.out, t.fault)) =
      some ([], some { cause := .memRange, addr := 0 }) := by decide
theorem test_coreDump :
    ask (exec (.coreDump 1 2) (st [(1, 0), (2, 2)] 0 [0x20, 0x01])) (fun t => t.out) =
      some [.outDump 0 [0x20, 0x01]] := by decide
theorem test_coreDump_empty_unchecked :
    ask (exec (.coreDump 1 2) (st [(1, -9), (2, -3)])) (fun t => t.out) = some [.outDump (-9) []] := by decide

/-! ### The cycle (2.1): each clause of the fault order, at a boundary -/

/-- The fault record after a step. -/
def faultOf (s : State) : Option (Option FaultRecord) := ask (step s) fun t => t.fault

theorem test_fetch_below : faultOf (st [(Reg.pc, -1)]) = some (some { cause := .fetchRange, addr := -1 }) := by decide
theorem test_fetch_above : faultOf (st [(Reg.pc, 4096)]) = some (some { cause := .fetchRange, addr := 4096 }) := by decide
theorem test_illegal_at_end :
    faultOf (st [(Reg.pc, 4095)] 4095 [0x16]) = some (some { cause := .illegalOpcode, addr := 4095 }) := by decide
theorem test_truncated_at_end :
    faultOf (st [(Reg.pc, 4094)] 4094 [0x1D]) = some (some { cause := .fetchRange, addr := 4094 }) := by decide
theorem test_bad_register_step :
    faultOf (st [] 0 [0x03, 0x01, 0x02, 0x14]) = some (some { cause := .badRegister, addr := 0 }) := by decide
theorem test_last_byte_runs :
    ask (step (st [(Reg.pc, 4095)])) (fun t => (t.reg Reg.pc, t.fault)) = some (4096, none) := by decide
theorem test_div_zero_step :
    ask (step (st [(1, 5)] 0 [0x06, 0x01, 0x00, 0x02])) (fun t => (t.fault, t.active, t.reg 2, t.reg Reg.pc)) =
      some (some { cause := .divZero, addr := 0 }, false, 0, 0) := by decide
theorem test_halted_has_no_step : stop (step { st [] with active := false }) = some .halted := by decide
theorem test_faulted_has_no_step : stop (step ((st []).raise .divZero)) = some .faulted := by decide

/-! ### The assembler (E1 to E8, 2.6) -/

/-- The image of a source text. -/
def image (src : String) : Option (List Byte) :=
  match assemble src.toList with
  | .ok bs => some bs
  | .error _ => none

/-- The error of a source text. -/
def asmError (src : String) : Option AsmError :=
  match assemble src.toList with
  | .ok _ => none
  | .error e => some e

/-- E3. -/
theorem test_assemble_listing :
    image "SET $1 5\nLOAD_LIT 32\nADD $5 $rs $5\nLOOP:\nOUTPUT $5\nJUMP_LABEL LOOP\n" =
      some [0x20, 0x01, 0x00, 0x00, 0x00, 0x05, 0x1D, 0x00, 0x00, 0x00, 0x20, 0x03, 0x05, 0x13, 0x05, 0x00,
        0x12, 0x05, 0x1E, 0x00, 0x00, 0x00, 0x0F] := by rfl
theorem test_assemble_two_labels : image "A: B: HALT\nJUMP_LIT B" = some [0xFF, 0x1E, 0x00, 0x00, 0x00, 0x00] := by rfl
theorem test_assemble_forward_label :
    image "SET $1 X\nNOP\nX: HALT" = some [0x20, 0x01, 0x00, 0x00, 0x00, 0x07, 0x00, 0xFF] := by rfl
theorem test_assemble_comment : image "   # only a comment\nADD $1 $2 $3 # sum" = some [0x03, 0x01, 0x02, 0x03] := by rfl
theorem test_assemble_min : image "SET $1 -2147483648" = some [0x20, 0x01, 0x80, 0x00, 0x00, 0x00] := by rfl
theorem test_assemble_too_big : asmError "SET $1 2147483648" = some (.unknownArgument 1 .unresolvableLabel) := by rfl
theorem test_assemble_bad_number : asmError "SET $1 12ab" = some (.parse 1 10) := by rfl
theorem test_assemble_bad_sign : asmError "SET $1 -x" = some (.parse 1 9) := by rfl
theorem test_assemble_bad_register : asmError "ADD $16 $1 $2" = some (.parse 1 5) := by rfl
theorem test_assemble_bad_identifier : asmError "a-b: NOP" = some (.parse 1 2) := by rfl
theorem test_assemble_arity : asmError "ADD $1 $2" = some (.unknownArgument 1 .operandMismatch) := by rfl
theorem test_assemble_string : asmError "OUTPUT \"hi\"" = some (.unknownArgument 1 .operandMismatch) := by rfl
theorem test_assemble_mnemonic : asmError "\nSPLIT $1 $2" = some (.unknownArgument 2 .unrecognizedMnemonic) := by rfl
theorem test_assemble_duplicate : asmError "x: NOP\nx: NOP" = some (.unknownArgument 2 .duplicateLabel) := by rfl
theorem test_assemble_undefined : asmError "JUMP_LABEL UNDEFINED" = some (.unknownArgument 1 .unresolvableLabel) := by rfl
theorem test_print : printInstr (.branchLit Reg.pc (-5)) = "BRANCH_LIT $PC -5".toList := by decide

/-- Of a line that is an instruction: nothing if it is complete, else whether its literal is a label, and its text. -/
def literalKind (line : List Char) : Option (Option (Bool × List Char)) :=
  match tokenize line with
  | .error _ => none
  | .ok toks =>
    match bodyOfTokens (splitLabels toks).2 with
    | .error _ => none
    | .ok (.complete _) => some none
    | .ok (.lacking _ tok) => some (some (tok.number.isNone, tok.text))

/-! ### Witnesses: for each statement with hypotheses, states and operands that meet them

(A statement whose hypotheses are a next state of `exec` or `step`, or one side of its if and else, has its witness in
the tests above: `test_div_truncates` and `test_div_zero_step` for DIV, `test_push`, `test_load_out_of_range` and so
on.) -/

/-- EncoderIsInverseOfDecoder, both laws: the last instruction of memory. -/
theorem witness_encoder :
    (Instr.add 1 2 3).wellFormed = true ∧ (4092 : Int) + (Instr.add 1 2 3).length ≤ (st [] 4092 [0x03, 0x01, 0x02, 0x03]).mem.size ∧
    (st [] 4092 [0x03, 0x01, 0x02, 0x03]).mem.bytes 4092 4 = encode (.add 1 2 3) ∧
    (match (st [] 4092 [0x03, 0x01, 0x02, 0x03]).mem.decodeAt 4092 with
      | .ok i => i == Instr.add 1 2 3
      | .error _ => false) = true := by decide

/-- PlacedWordIsFetched, at the last place six bytes fit. -/
theorem witness_placed_word :
    (st [(Reg.pc, 4090)]).mem.wf = true ∧ 0 ≤ s32 ((st [(Reg.pc, 4090)]).reg Reg.pc) ∧
    s32 ((st [(Reg.pc, 4090)]).reg Reg.pc) + 6 ≤ (st [(Reg.pc, 4090)]).mem.size ∧
    decodeTableWord 8 0xFF = some .halt := by decide

/-- WrittenCodeIsFetched, at the end of memory. -/
theorem witness_written_code :
    (st []).mem.wf = true ∧ (Instr.set 1 5).wellFormed = true ∧ 4090 + (Instr.set 1 5).length ≤ (st []).mem.size := by decide

/-- StepRunsDecodedInstruction, FaultPriority's last clause, AdvanceNeverWraps. -/
theorem witness_running :
    (st [(Reg.pc, 4095)]).active = true ∧ (st [(Reg.pc, 4095)]).fault = none ∧ (st [(Reg.pc, 4095)]).mem.wf = true ∧
    (st [(Reg.pc, 4095)]).mem.bytes 4095 Instr.nop.length = encode .nop ∧
    (match (st [(Reg.pc, 4095)]).fetch with
      | .ok i => i == .nop
      | .error _ => false) = true := by decide

/-- StoppedEngineTakesNoStep and StatusDecidesStep: each status. -/
theorem witness_status :
    (st []).status = .running ∧ State.status { st [] with active := false } = .halted ∧
    ((st []).raise .divZero).status = .faulted { cause := .divZero, addr := 0 } ∧
    (st [] 0 [0x01]).status = .blocked ∧ (st [] 0 [0x02]).status = .blocked := by decide

/-- OnlyHaltAndFaultsStop: HALT from an active state with no fault. -/
theorem witness_halt :
    (st []).fault = none ∧ (st []).active = true ∧ ask (exec .halt (st [])) (fun t => t.active) = some false := by decide

/-- ExecuteFaultsByOpcode and FaultingStepIsPrecise. -/
theorem witness_execute_fault :
    (st []).fault = none ∧ ask (exec (.div 1 2 3) (st [])) (fun t => t.fault) = some (some { cause := .divZero, addr := 0 }) ∧
    ask (step (st [] 0 [0x15, 0x01])) (fun t => t.fault) = some (some { cause := .memRange, addr := 0 }) := by decide

/-- A console that never has a value. -/
def silent : Console := { int := fun _ => none, char := fun _ => none }

/-- StatusDecidesStep: a run that ends in each of the four ways (R223). -/
theorem witness_ends_halted : EndsIn silent (st [] 0 [0xFF]) .halted := ⟨1, by decide⟩
theorem witness_ends_faulted : EndsIn silent (st [] 0 [0x16]) (.faulted { cause := .illegalOpcode, addr := 0 }) :=
  ⟨1, by decide⟩
theorem witness_ends_blocked : EndsIn silent (st [] 0 [0x01]) .blocked := ⟨0, .inl ⟨by decide, fun _ _ => rfl⟩⟩
theorem witness_ends_diverging : EndsIn silent (st [] 0 [0x10, 0x12]).markStarted .diverging := by
  have h : step (st [] 0 [0x10, 0x12]).markStarted = .next (st [] 0 [0x10, 0x12]).markStarted := by rfl
  have hr : ∀ n, (st [] 0 [0x10, 0x12]).markStarted.run silent n = (st [] 0 [0x10, 0x12]).markStarted := by
    intro n
    induction n with
    | zero => rfl
    | succ n ih => rw [State.run, ih, State.tick, h]
  exact fun n => ⟨n, Nat.le_refl n, _, by rw [hr, h]⟩

/-- A console that answers each read a moment after it blocks. -/
theorem test_run_answered :
    State.reg (State.run (st [] 0 [0x01, 0xFF]) { int := fun n => some (BitVec.ofNat 32 (n + 7)), char := fun _ => none } 2) Reg.rs =
      7 := by decide

/-- StepKeepsInvariant and OutputIsOnlyAppended. -/
theorem witness_invariant :
    (st [] 0 [0x12, 0x05]).mem.wf = true ∧ (st [] 0 [0x12, 0x05]).fault.isSome = false ∧
    ask (step (st [] 0 [0x12, 0x05])) (fun t => t.out) = some [.outInt 0] := by decide

/-- SuppliedReadCompletes. -/
theorem witness_supplied :
    ((st [] 0 [0x01]).supplyInt 7).isSome = true ∧ ((st [] 0 [0x02]).supplyChar 65).isSome = true := by decide

/-- LoadGivesResetState: an image that fits exactly, and one byte more. -/
theorem witness_load :
    memSizeWellFormed 2 = true ∧ ((State.load 2 [0x00, 0xFF]).map fun s => s.mem.bytes 0 2) = some [0x00, 0xFF] ∧
    (State.load 2 [0x00, 0x00, 0xFF]).isNone = true := by decide

/-- RegistersOutsideDestinationsKept, MemoryOutsideStoresKept, ConsoleOnlyThroughItsOpcodes. -/
theorem witness_frames :
    ask (exec (.store 3 1) (st [(3, 100)])) (fun t => t.reg 3) = some 100 ∧ (3 : Reg) ∉ destRegs (.store 3 1) ∧
    storeTarget (.store 3 1) (st [(3, 100)]) = some (100, 4) ∧ storeTarget .nop (st []) = none ∧
    (Instr.store 3 1).opcode ∉ ([0x01, 0x02, 0x12, 0x13, 0x1B, 0x1C] : List Byte) := by decide

/-- MixedWidthAccess and PopUndoesPush, at the last word of memory. -/
theorem witness_last_word :
    (st [(Reg.sp, 4092)]).mem.wf = true ∧ ((st []).mem.storeWord 4092 0x12345678).isSome = true ∧
    0 ≤ (st [(Reg.sp, 4092)]).pushAddress ∧
    (st [(Reg.sp, 4092)]).pushAddress + 4 ≤ (st [(Reg.sp, 4092)]).mem.size ∧
    (ask (exec (.pushStk 1) (st [(Reg.sp, 4092)])) fun t => t.reg Reg.sp) = some 4096 := by decide

/-- The out-of-range sides of PUSH_STK, POP_STK, STORE, STORE_BYTE and CORE_DUMP. -/
theorem witness_out_of_range :
    ask (exec (.pushStk 1) (st [(Reg.sp, 4093)])) (fun t => t.reg Reg.sp) = some 4093 ∧
    ask (exec (.popStk 1) (st [(Reg.sp, 2)])) (fun t => t.reg Reg.sp) = some 2 ∧
    ask (exec (.store 3 1) (st [(3, -4)])) (fun t => t.active) = some false ∧
    ask (exec (.storeByte 3 1) (st [(3, 4096)])) (fun t => t.active) = some false ∧
    ask (exec (.coreDump 1 2) (st [(1, 4090), (2, 10)])) (fun t => t.out) = some [] := by decide

/-- The last values in range of POP_STK, LOAD, LOAD_BYTE, STORE, STORE_BYTE and CORE_DUMP, whose statements have a clause
on each side. -/
theorem witness_in_range :
    ask (exec (.popStk 1) (st [(Reg.sp, 4)] 0 [0x01])) (fun t => t.reg 1) = some 0x01000000 ∧
    ask (exec (.load 3 1) (st [(3, 4092)] 4095 [0x07])) (fun t => t.reg 1) = some 7 ∧
    ask (exec (.loadByte 3 1) (st [(3, 4095)] 4095 [0x07])) (fun t => t.reg 1) = some 7 ∧
    ask (exec (.store 3 1) (st [(3, 4092), (1, 7)])) (fun t => t.mem.byte 4095) = some 7 ∧
    ask (exec (.storeByte 3 1) (st [(3, 4095), (1, 7)])) (fun t => t.mem.byte 4095) = some 7 ∧
    ask (exec (.coreDump 1 2) (st [(1, 4095), (2, 1)])) (fun t => t.out) = some [.outDump 4095 [0x00]] ∧
    ask (exec (.coreDump 1 2) (st [(1, 5000)])) (fun t => t.out) = some [.outDump 5000 []] := by decide

/-- PlacedStringIsRead: a string that ends with memory. -/
theorem witness_string :
    (st []).mem.wf = true ∧ (∀ c ∈ ([0x48, 0x69] : List Half), c ≠ 0) ∧
    ((st []).placeString 4090 [0x48, 0x69]).isSome = true := ⟨by decide, by simp, by decide⟩

/-- PlacedStringIsRead, its other clauses: right after a load, to the last byte; and after one step. -/
theorem witness_string_loaded :
    ((State.load 8 [0x00]).bind fun s => (s.placeString 2 [0x48, 0x69]).map fun t => t.mem.bytes 0 8) =
      some [0x00, 0x00, 0x00, 0x48, 0x00, 0x69, 0x00, 0x00] := by decide
theorem test_placeString_too_long : ((State.load 8 []).bind fun s => s.placeString 3 [0x48, 0x69]).isNone = true := by
  decide
theorem test_placeString_after_step :
    ask (step (st [])) (fun t => (t.placeString 100 [0x48]).isNone) = some true := by decide
theorem test_placeString_after_halt :
    ask (step (st [] 0 [0xFF])) (fun t => (t.placeString 100 [0x48]).isNone) = some true := by decide

/-- OutputStrEmitsWholeString, its first clause; its second has `test_outputStr_no_terminator`. -/
theorem witness_isString : IsStringAt (st [] 300 [0x00, 0x48]).mem 300 [0x48] :=
  ⟨by decide, by decide, (by rfl : Memory.loadHalf _ _ = some 0)⟩

/-- LabelOffsetIsItsLinesPlace and AssembledImageDecodesBack. -/
theorem witness_assembled :
    image "L: NOP\nJUMP_LIT L" = some [0x00, 0x1E, 0x00, 0x00, 0x00, 0x00] ∧
    (match passOne 0 [] (sourceLines "L: NOP\nJUMP_LIT L".toList) with
      | .ok t => (match passTwo t (sourceLines "L: NOP\nJUMP_LIT L".toList) with
        | .ok ils => ils.length
        | .error _ => 0)
      | .error _ => 0) = 2 := ⟨by rfl, by rfl⟩

/-- LabelOffsetIsItsLinesPlace, the clauses on one line: the second line of that source lacks its literal, whose text is
no number and names the first line; the literal of `SET $1 5` is a number, and `NOP` lacks none. -/
theorem witness_literal_kinds :
    ((sourceLines "L: NOP\nJUMP_LIT L".toList)[1]?.map fun l => literalKind l.text) = some (some (some (true, "L".toList))) ∧
    literalKind "SET $1 5".toList = some (some (false, "5".toList)) ∧ literalKind "NOP".toList = some none ∧
    (match passOne 0 [] (sourceLines "L: NOP\nJUMP_LIT L".toList) with
      | .ok t => t.find "L".toList
      | .error _ => none) = some 0 := ⟨by rfl, by rfl, by rfl, by rfl⟩

end Sys2Proof.Tests
end

