-- ==== Sys2Proof/Proofs/StepEffect.lean ====
section
/-! PROOF. What one step does to the state as a whole, and that it keeps the invariant (O15). -/

namespace Sys2Proof.Machine

variable {s t u : State} {i : Instr} {k : Cause}

/-- What the execute part of an instruction does outside the registers, before `State.retire` ends it: nothing, one store
(20_memory.md R52), one event (44_console.md R151), or one value taken from the console (R152, R153). -/
inductive ExecPart (s : State) : State → Prop where
  | same : ExecPart s s
  | storeWord {a : Int} {v : Word} {m : Memory} (hm : s.mem.storeWord a v = some m) : ExecPart s { s with mem := m }
  | storeByte {a : Int} {v : Byte} {m : Memory} (hm : s.mem.storeByte a v = some m) : ExecPart s { s with mem := m }
  | emit (e : Event) : ExecPart s (s.emit e)
  | takeInts (vs : List Word) : ExecPart s { s with inInts := vs }
  | takeChars (cs : List Half) : ExecPart s { s with inChars := cs }

/-- The three kinds of next state: a runtime fault, an instruction that ends in line or with a transfer, and HALT
(40_cycle.md R83, R84, R86; 42_control.md R125). -/
inductive StepEffect (s : State) : State → Prop where
  | raise (c : Cause) : StepEffect s (s.raise c)
  | retire {u : State} (hu : ExecPart s u) (len : Nat) (ws : List (Reg × Word)) : StepEffect s (u.retire len ws)
  | halt : StepEffect s { s.retire 1 [] with active := false }

/-! ### Every next state is of one of these kinds -/

/-- An instruction with one check ends as its own state does, or in the fault. -/
theorem stepEffect_of_orRaise {o : Option State} (h : orRaise s k o = .next t)
    (ho : ∀ u, o = some u → StepEffect s u) : StepEffect s t := by
  obtain h | ⟨-, rfl⟩ := orRaise_next.1 h
  · exact ho t h
  · exact .raise k

/-- An instruction that fails with its memory access and else goes on with the value `x` the access gives. -/
theorem stepEffect_of_orRaise_map {α : Type} {o : Option α} {f : α → State}
    (h : orRaise s k (o.map f) = .next t) (hf : ∀ x, o = some x → StepEffect s (f x)) : StepEffect s t := by
  refine stepEffect_of_orRaise h fun u hu => ?_
  obtain ⟨x, hx, rfl⟩ := Option.map_eq_some_iff.1 hu
  exact hf x hx

/-- Every instruction that goes on has one of the effects. -/
theorem exec_stepEffect (h : exec i s = .next t) : StepEffect s t := by
  cases i
  case nop | add | subt | mult | neg | and | or | lshift | rshift | gt | lt | eq | copy | loadLit | set
      | branch | jump | jumpLit | jumpLabel | branchLit =>
    cases h
    exact .retire .same _ _
  case output | outputChar =>
    cases h
    exact .retire (.emit _) _ _
  case halt =>
    cases h
    exact .halt
  case input =>
    simp only [exec, execInput] at h
    split at h <;> cases h
    exact .retire (.takeInts _) _ _
  case inputChar =>
    simp only [exec, execInputChar] at h
    split at h <;> cases h
    exact .retire (.takeChars _) _ _
  case div =>
    refine stepEffect_of_orRaise h fun u hu => ?_
    split at hu <;> cases hu
    exact .retire .same _ _
  case popStk | load | loadByte => exact stepEffect_of_orRaise_map h fun _ _ => .retire .same _ _
  case outputStr | coreDump => exact stepEffect_of_orRaise_map h fun _ _ => .retire (.emit _) _ _
  case pushStk | store => exact stepEffect_of_orRaise_map h fun _ hm => .retire (.storeWord hm) _ _
  case storeByte => exact stepEffect_of_orRaise_map h fun _ hm => .retire (.storeByte hm) _ _

/-- Every step that goes on has one of the effects. -/
theorem step_stepEffect (h : step s = .next t) : StepEffect s t := by
  obtain ⟨-, -, ⟨c, -, rfl⟩ | ⟨i, -, h⟩⟩ := step_next h
  · exact .raise c
  · exact exec_stepEffect h

/-! ### What the effects keep -/

/-- The execute part touches neither the active flag nor the fault record. -/
theorem ExecPart.sameControl (h : ExecPart s u) : SameControl s u := by
  cases h <;> exact ⟨rfl, rfl⟩

/-- The execute part keeps memory canonical and its size: its stores are range-checked. -/
theorem ExecPart.mem_wf (h : ExecPart s u) (hs : s.mem.wf = true) : u.mem.wf = true ∧ u.mem.size = s.mem.size := by
  cases h with
  | same | emit | takeInts | takeChars => exact ⟨hs, rfl⟩
  | storeWord hm => exact storeWord_wf hs hm
  | storeByte hm => exact storeByte_wf hs hm

/-- Every effect keeps memory canonical and its size. -/
theorem StepEffect.mem_wf (h : StepEffect s t) (hs : s.mem.wf = true) : t.mem.wf = true ∧ t.mem.size = s.mem.size := by
  cases h with
  | raise c => exact ⟨hs, rfl⟩
  | retire hu len ws => simpa using hu.mem_wf hs
  | halt => simpa using hs

/-- Every effect that leaves a fault recorded leaves the engine inactive, if that was so before. -/
theorem StepEffect.inactive_of_fault (h : StepEffect s t) (hs : s.fault.isSome = true → s.active = false) :
    t.fault.isSome = true → t.active = false := by
  cases h with
  | raise c => exact fun _ => rfl
  | retire hu len ws =>
    obtain ⟨hactive, hfault⟩ := hu.sameControl
    simpa [hactive, hfault] using hs
  | halt => exact fun _ => rfl

/-- Settles O15: the effect of a step keeps the first two parts of the invariant, and the third speaks of a state from
which no step was taken, which no next state is. -/
theorem stepKeepsInvariant : Obligations.StepKeepsInvariant := by
  intro s t ⟨hwf, hfault, _⟩ hstep
  have heffect : StepEffect s t := step_stepEffect hstep
  obtain ⟨hwf', hsize⟩ := heffect.mem_wf hwf
  have hstarted : t.started = true := step_started hstep
  exact ⟨⟨hwf', heffect.inactive_of_fault hfault, by simp [hstarted]⟩, hsize⟩

end Sys2Proof.Machine
end

