-- ==== Sys2Proof/Proofs/ActiveFlag.lean ====
section
/-! PROOF. What an instruction does to the active flag and the fault record: HALT alone clears the flag without
recording a fault (O12). -/

namespace Sys2Proof.Machine

variable {s t u : State} {i : Instr} {k : Cause}

/-- The writes and the advance of the pc that end an instruction leave the flag and the record as its execute part
left them. -/
theorem SameControl.retire (h : SameControl s u) (len : Nat) (ws : List (Reg × Word)) :
    SameControl s (u.retire len ws) :=
  ⟨(retire_active u len ws).trans h.1, (retire_fault u len ws).trans h.2⟩

/-- What every instruction but HALT does to the flag and the record: nothing, or the runtime fault it takes. -/
def KeepsControlOrRaises (s t : State) : Prop := SameControl s t ∨ ∃ c, t = s.raise c

/-- An instruction with one check keeps the flag and the record if its own state does, or takes the fault. -/
theorem keepsControlOrRaises_of_orRaise {o : Option State} (h : orRaise s k o = .next t)
    (ho : ∀ u, o = some u → SameControl s u) : KeepsControlOrRaises s t := by
  obtain h | ⟨-, rfl⟩ := orRaise_next.1 h
  · exact .inl (ho t h)
  · exact .inr ⟨k, rfl⟩

/-- The same, where the check is an access and the instruction goes on with the value the access gives. -/
theorem keepsControlOrRaises_of_orRaise_map {α : Type} {o : Option α} {f : α → State}
    (h : orRaise s k (o.map f) = .next t) (hf : ∀ x, SameControl s (f x)) : KeepsControlOrRaises s t := by
  refine keepsControlOrRaises_of_orRaise h fun u hu => ?_
  obtain ⟨x, -, rfl⟩ := Option.map_eq_some_iff.1 hu
  exact hf x

/-- Every instruction but HALT leaves the flag and the record as they are, or takes a runtime fault. -/
theorem exec_keepsControlOrRaises (hi : i ≠ .halt) (h : exec i s = .next t) : KeepsControlOrRaises s t := by
  cases i
  case halt => exact absurd rfl hi
  case nop | add | subt | mult | neg | and | or | lshift | rshift | gt | lt | eq | copy | loadLit | set
      | branch | jump | jumpLit | jumpLabel | branchLit | output | outputChar =>
    cases h
    exact .inl (.retire ⟨rfl, rfl⟩ _ _)
  case input | inputChar =>
    simp only [exec, execInput, execInputChar] at h
    split at h <;> cases h
    exact .inl (.retire ⟨rfl, rfl⟩ _ _)
  case div =>
    refine keepsControlOrRaises_of_orRaise h fun u hu => ?_
    split at hu <;> cases hu
    exact .retire ⟨rfl, rfl⟩ _ _
  case pushStk | popStk | load | loadByte | store | storeByte | outputStr | coreDump =>
    exact keepsControlOrRaises_of_orRaise_map h fun _ => .retire ⟨rfl, rfl⟩ _ _

/-- HALT clears the active flag (42_control.md R125). -/
theorem exec_halt_active (h : exec .halt s = .next t) : t.active = false := by
  cases h
  rfl

/-- Settles O12: HALT clears the flag, a fault clears it and is recorded, and every other end of an instruction keeps
the flag and the empty record. -/
theorem onlyHaltAndFaultsStop : Obligations.OnlyHaltAndFaultsStop := by
  intro i s t hfault h
  by_cases hi : i = .halt
  · subst hi
    simp [exec_halt_active h]
  · obtain ⟨hactive', hfault'⟩ | ⟨c, rfl⟩ := exec_keepsControlOrRaises hi h
    · exact ⟨fun ht => hactive'.symm.trans ht, fun ha => by simp [hactive', hfault', ha, hfault, hi]⟩
    · simp

end Sys2Proof.Machine
end

section
/-! PROOF. What reaches memory and what is read back: the word a store placed, the bytes an instruction may change, and
the string the host places (O3, O20, O22, O23). -/

namespace Sys2Proof.Machine

variable {m m' : Memory} {s t : State} {i : Instr} {k : Cause} {a : Int}

/-- Settles O3: the decoder run on each word. -/
theorem listedWordsDecode : Obligations.ListedWordsDecode :=
  ⟨rfl, rfl, rfl, rfl, rfl, rfl, rfl, rfl⟩

/-! ### A stored word, read back in any width -/

/-- The bytes of a stored word, most significant first, each at its place (20_memory.md R43, R47). -/
theorem byte_of_storeWord {v : Word} {n : Nat} (hwf : m.wf = true) (hm : m.storeWord a v = some m') (hn : n < 4) :
    m'.byte (a.toNat + n) = (bytesOfWord v)[n] := by
  obtain ⟨⟨h0, h4⟩, rfl⟩ := storeWord_eq.1 hm
  exact byte_setBytes_inside hwf (by simp; omega) hn

/-- Settles O22: each access reads some of the four bytes stored, and puts them together again. -/
theorem mixedWidthAccess : Obligations.MixedWidthAccess := by
  intro m m' a v hwf hm
  obtain ⟨⟨h0, h4⟩, -⟩ := storeWord_eq.1 hm
  obtain ⟨-, hsize⟩ := storeWord_wf hwf hm
  have hb0 : m'.byte a.toNat = v.extractLsb' 24 8 := byte_of_storeWord hwf hm (n := 0) (by decide)
  have hb1 : m'.byte (a.toNat + 1) = v.extractLsb' 16 8 := byte_of_storeWord hwf hm (by decide)
  have hb2 : m'.byte (a.toNat + 2) = v.extractLsb' 8 8 := byte_of_storeWord hwf hm (by decide)
  have hb3 : m'.byte (a.toNat + 3) = v.extractLsb' 0 8 := byte_of_storeWord hwf hm (by decide)
  have ha2 : (a + 2).toNat = a.toNat + 2 := by omega
  have ha3 : (a + 3).toNat = a.toNat + 3 := by omega
  have hlow : halfOfBytes (v.extractLsb' 8 8) (v.extractLsb' 0 8) = v.extractLsb' 0 16 :=
    BitVec.extractLsb'_append_extractLsb'_eq_extractLsb' rfl
  refine ⟨?word, ?byte, ?lastByte, ?half⟩
  case word => rw [loadWord_in (by omega), hb0, hb1, hb2, hb3, wordOfBytes_bytesOfWord]
  case byte => rw [loadByte_in (by omega), hb0]
  case lastByte => rw [loadByte_in (by omega), ha3, hb3]
  case half => rw [loadHalf_in (by omega), ha2, hb2, hb3, hlow]

/-! ### The bytes an instruction may change -/

/-- What an instruction whose store target is `target` does to memory: nothing, or it writes the target's bytes
(20_memory.md R52). -/
def KeepsOrStoresAt (target : Option (Int × Nat)) (s t : State) : Prop :=
  t.mem = s.mem ∨ ∃ a bs, target = some (a, bs.length) ∧ 0 ≤ a ∧ t.mem = s.mem.setBytes a.toNat bs

/-- An instruction with one check and no store keeps memory if its own state does: a runtime fault keeps it too. -/
theorem mem_eq_of_orRaise {o : Option State} (h : orRaise s k o = .next t) (ho : ∀ u, o = some u → u.mem = s.mem) :
    t.mem = s.mem := by
  obtain h | ⟨-, rfl⟩ := orRaise_next.1 h
  · exact ho t h
  · rfl

/-- The same, where the check is an access and the instruction goes on with the value the access gives. -/
theorem mem_eq_of_orRaise_map {α : Type} {o : Option α} {f : α → State} (h : orRaise s k (o.map f) = .next t)
    (hf : ∀ x, (f x).mem = s.mem) : t.mem = s.mem := by
  refine mem_eq_of_orRaise h fun u hu => ?_
  obtain ⟨x, -, rfl⟩ := Option.map_eq_some_iff.1 hu
  exact hf x

/-- An instruction whose access is a store of `n` bytes at `a`: it writes them, or takes the fault and writes nothing
(R48). -/
theorem keepsOrStoresAt_of_store {o : Option Memory} {f : Memory → State} {n : Nat}
    (h : orRaise s k (o.map f) = .next t)
    (ho : ∀ m, o = some m → 0 ≤ a ∧ ∃ bs : List Byte, m = s.mem.setBytes a.toNat bs ∧ bs.length = n)
    (hf : ∀ m, (f m).mem = m) : KeepsOrStoresAt (some (a, n)) s t := by
  obtain h | ⟨-, rfl⟩ := orRaise_next.1 h
  · obtain ⟨m, hm, rfl⟩ := Option.map_eq_some_iff.1 h
    obtain ⟨h0, bs, rfl, rfl⟩ := ho m hm
    exact .inr ⟨a, bs, rfl, h0, hf _⟩
  · exact .inl rfl

/-- Every instruction keeps memory or writes the bytes of its store target. -/
theorem exec_keepsOrStoresAt (h : exec i s = .next t) : KeepsOrStoresAt (storeTarget i s) s t := by
  cases i
  case nop | add | subt | mult | neg | and | or | lshift | rshift | gt | lt | eq | copy | loadLit | set
      | branch | jump | jumpLit | jumpLabel | branchLit | output | outputChar | halt =>
    cases h
    exact .inl (retire_mem _ _ _)
  case input | inputChar =>
    simp only [exec, execInput, execInputChar] at h
    split at h <;> cases h
    exact .inl (retire_mem _ _ _)
  case div =>
    refine .inl (mem_eq_of_orRaise h fun u hu => ?_)
    split at hu <;> cases hu
    exact retire_mem _ _ _
  case popStk | load | loadByte | outputStr | coreDump =>
    exact .inl (mem_eq_of_orRaise_map h fun _ => retire_mem _ _ _)
  case pushStk | store =>
    refine keepsOrStoresAt_of_store h (fun m hm => ?_) fun _ => retire_mem _ _ _
    obtain ⟨⟨h0, -⟩, rfl⟩ := storeWord_eq.1 hm
    exact ⟨h0, _, rfl, rfl⟩
  case storeByte =>
    refine keepsOrStoresAt_of_store h (fun m hm => ?_) fun _ => retire_mem _ _ _
    obtain ⟨⟨h0, -⟩, rfl⟩ := storeByte_eq.1 hm
    exact ⟨h0, _, rfl, rfl⟩

/-- Settles O20: where memory changed, it changed by a write of the target's bytes. -/
theorem memoryOutsideStoresKept : Obligations.MemoryOutsideStoresKept := by
  intro i s t h
  obtain hmem | ⟨a, bs, htarget, h0, hmem⟩ := exec_keepsOrStoresAt h
  · exact ⟨by rw [hmem], fun _ _ => by rw [hmem], fun _ _ _ _ _ => by rw [hmem]⟩
  · refine ⟨by rw [hmem, setBytes_size], fun hnone => absurd (htarget.symm.trans hnone) (by simp), ?_⟩
    intro a' n htarget' x hx
    obtain ⟨rfl, rfl⟩ : a = a' ∧ bs.length = n := by simpa [htarget] using htarget'
    rw [hmem, byte_setBytes_outside (by omega)]

/-! ### The string the host places -/

/-- The bytes of a string in memory: each character as a half-word, then a zero half-word (20_memory.md R49). -/
def stringBytes (text : List Half) : List Byte := (text ++ [0]).flatMap bytesOfHalf

@[simp] theorem stringBytes_cons (c : Half) (cs : List Half) :
    stringBytes (c :: cs) = bytesOfHalf c ++ stringBytes cs := rfl

@[simp] theorem stringBytes_length (text : List Half) : (stringBytes text).length = 2 * text.length + 2 := by
  induction text with
  | nil => rfl
  | cons c cs ih => simp [ih]; omega

/-- One write of two lists of bytes is two writes, one after the other. -/
theorem setBytes_append (m : Memory) (n : Nat) (bs cs : List Byte) :
    m.setBytes n (bs ++ cs) = (m.setBytes n bs).setBytes (n + bs.length) cs := by
  induction bs generalizing m n with
  | nil => rfl
  | cons b bs ih => simp [Memory.setBytes, ih, Nat.add_assoc, Nat.add_comm 1]

/-- Writing a string is writing its first half-word, and the rest of it two bytes on. -/
theorem setBytes_stringBytes_cons (h0 : 0 ≤ a) (c : Half) (cs : List Half) :
    m.setBytes a.toNat (stringBytes (c :: cs)) =
      (m.setBytes a.toNat (bytesOfHalf c)).setBytes (a + 2).toNat (stringBytes cs) := by
  rw [stringBytes_cons, setBytes_append, bytesOfHalf_length, show a.toNat + 2 = (a + 2).toNat by omega]

/-- What `store_string` can do: one write of the string's bytes, with its range checked as a whole. -/
theorem storeString_eq {text : List Half} :
    m.storeString a text = some m' ↔
      m.inRange a (2 * text.length + 2) ∧ m' = m.setBytes a.toNat (stringBytes text) := by
  induction text generalizing m a with
  | nil => exact storeHalf_eq
  | cons c cs ih =>
    rw [List.length_cons]
    constructor
    · intro h
      obtain ⟨m1, h1, h2⟩ := Option.bind_eq_some_iff.1 h
      obtain ⟨⟨h0, -⟩, rfl⟩ := storeHalf_eq.1 h1
      obtain ⟨⟨-, hend⟩, rfl⟩ := ih.1 h2
      rw [setBytes_size] at hend
      exact ⟨⟨h0, by omega⟩, (setBytes_stringBytes_cons h0 c cs).symm⟩
    · rintro ⟨⟨h0, hend⟩, rfl⟩
      refine Option.bind_eq_some_iff.2 ⟨_, storeHalf_in c ⟨h0, by omega⟩, ih.2 ⟨⟨by omega, ?_⟩, ?_⟩⟩
      · rw [setBytes_size]
        omega
      · exact setBytes_stringBytes_cons h0 c cs

/-- A half-word whose two bytes lead a write reads back. -/
theorem loadHalf_setBytes {c : Half} {bs : List Byte} (hwf : m.wf = true) (h0 : 0 ≤ a)
    (hend : a + 2 + bs.length ≤ m.size) : (m.setBytes a.toNat (bytesOfHalf c ++ bs)).loadHalf a = some c := by
  have hfit : a.toNat + (bytesOfHalf c ++ bs).length ≤ m.size := by
    rw [List.length_append, bytesOfHalf_length]
    omega
  have hb0 : (m.setBytes a.toNat (bytesOfHalf c ++ bs)).byte a.toNat = c.extractLsb' 8 8 :=
    byte_setBytes_inside (k := 0) hwf hfit (by simp)
  have hb1 : (m.setBytes a.toNat (bytesOfHalf c ++ bs)).byte (a.toNat + 1) = c.extractLsb' 0 8 :=
    byte_setBytes_inside (k := 1) hwf hfit (by simp; omega)
  rw [loadHalf_in ⟨h0, by rw [setBytes_size]; omega⟩, hb0, hb1, halfOfBytes_bytesOfHalf]

/-- The bytes of a text with no zero half-word, written where they fit, are a string as OUTPUT_STR reads it
(44_console.md R156). -/
theorem isStringAt_setBytes {text : List Half} (hwf : m.wf = true) (htext : ∀ c ∈ text, c ≠ 0)
    (hr : m.inRange a (2 * text.length + 2)) : IsStringAt (m.setBytes a.toNat (stringBytes text)) a text := by
  induction text generalizing m a with
  | nil => exact loadHalf_setBytes (bs := []) hwf hr.1 (by simpa using hr.2)
  | cons c cs ih =>
    obtain ⟨h0, hend⟩ := hr
    rw [List.length_cons] at hend
    have hfirst : (m.setBytes a.toNat (bytesOfHalf c ++ stringBytes cs)).loadHalf a = some c :=
      loadHalf_setBytes hwf h0 (by rw [stringBytes_length]; omega)
    refine ⟨hfirst, htext c List.mem_cons_self, ?_⟩
    rw [setBytes_stringBytes_cons h0]
    refine ih (setBytes_wf hwf ?_) (fun d hd => htext d (List.mem_cons_of_mem c hd)) ⟨by omega, ?_⟩
    · rw [bytesOfHalf_length]
      omega
    · rw [setBytes_size]
      omega

/-- What a load leaves of the size and of the record of the first step (70_reset_and_hazards.md R220, R222). -/
theorem load_size_started {memSize : Nat} {image : List Byte} (h : State.load memSize image = some s) :
    s.mem.size = memSize ∧ s.started = false := by
  unfold State.load at h
  split at h
  · cases h
    exact ⟨setBytes_size _ _, rfl⟩
  · cases h

/-- Settles O23: placing a string is one write of its bytes, possible while no step was taken, and no moment of a run
undoes a first step. -/
theorem placedStringIsRead : Obligations.PlacedStringIsRead := by
  refine ⟨?read, ?fits, ?never⟩
  case read =>
    intro s t a text hwf htext hplace
    obtain ⟨hstarted, m, hm, rfl⟩ := placeString_some.1 hplace
    obtain ⟨hwf', hsize⟩ := storeString_wf hwf hm
    obtain ⟨hr, rfl⟩ := storeString_eq.1 hm
    have hstring := isStringAt_setBytes hwf htext hr
    refine ⟨hstring, loadString_iff.2 hstring, hwf', hsize, fun x hx => byte_setBytes_outside ?_, fun _ => rfl,
      ⟨rfl, rfl⟩, ⟨rfl, rfl, rfl⟩, hstarted⟩
    obtain ⟨h0, -⟩ := hr
    rw [stringBytes_length]
    omega
  case fits =>
    intro memSize image s a text hload h0 hend
    obtain ⟨rfl, hstarted⟩ := load_size_started hload
    exact ⟨_, placeString_some.2 ⟨hstarted, _, storeString_eq.2 ⟨⟨h0, by push_cast; omega⟩, rfl⟩, rfl⟩⟩
  case never =>
    intro s t hstep c n a text
    simp [State.placeString, run_started (step_started hstep)]

end Sys2Proof.Machine
end

section
/-! PROOF. The opcode map, the encoder and the decoder as one relation, and what a fetch at an address of memory gives
(O1, O2, O4, O5). -/

namespace Sys2Proof

variable {op : Byte} {sh : Shape} {rs : List Reg} {lit : Option Word} {i : Instr} {bs rest : List Byte}

/-- Settles O2: the opcode map run on each of the 256 bytes. -/
theorem categoryOfEveryOpcodeByte : Obligations.CategoryOfEveryOpcodeByte :=
  ⟨by decide, by decide, rfl, rfl, rfl, rfl, rfl, rfl⟩

/-! ### A row of the opcode map and the instructions it makes -/

/-- The row `sh` of the opcode map makes the instruction `i` of the register fields `rs` and the literal `lit`
(30_encoding.md R61). -/
inductive Shape.Makes : Shape → List Reg → Option Word → Instr → Prop where
  | n (i : Instr) : Makes (.n i) [] none i
  | r1 (f : Reg → Instr) (a : Reg) : Makes (.r1 f) [a] none (f a)
  | r2 (f : Reg → Reg → Instr) (a b : Reg) : Makes (.r2 f) [a, b] none (f a b)
  | r3 (f : Reg → Reg → Reg → Instr) (a b c : Reg) : Makes (.r3 f) [a, b, c] none (f a b c)
  | l (f : Word → Instr) (w : Word) : Makes (.l f) [] (some w) (f w)
  | rl (f : Reg → Word → Instr) (a : Reg) (w : Word) : Makes (.rl f) [a] (some w) (f a w)

/-- The bytes after the opcode: the register fields in order, then the literal, big-endian (R61, R63). -/
def operandBytes (rs : List Reg) (lit : Option Word) : List Byte :=
  rs.map byteOfReg ++ (lit.map bytesOfWord).getD []

theorem encode_eq (i : Instr) : encode i = i.opcode :: operandBytes i.operands.1 i.operands.2 := rfl

theorem wellFormed_iff : i.wellFormed = true ↔ i.canonical = i := beq_iff_eq

/-- The row of an instruction's opcode makes it, under its canonical name, of its operands. -/
theorem exists_makes (i : Instr) :
    ∃ sh, shapeOf i.opcode = some sh ∧ sh.Makes i.operands.1 i.operands.2 i.canonical := by
  cases i <;> exact ⟨_, rfl, by constructor⟩

/-- What a row makes has the row's opcode and the operands it is made of, and is well formed. -/
theorem opcode_operands_of_makes (h : shapeOf op = some sh) (hi : sh.Makes rs lit i) :
    i.opcode = op ∧ i.operands = (rs, lit) ∧ i.canonical = i := by
  have hbyte : BitVec.ofNat 8 op.toNat = op := by simp
  unfold shapeOf at h
  split at h <;> cases h
  all_goals
    rename_i hop
    rw [hop] at hbyte
    subst hbyte
    cases hi
    exact ⟨rfl, rfl, rfl⟩

/-- What a row makes is encoded as the row's opcode and the bytes of its operands. -/
theorem encode_of_makes (h : shapeOf op = some sh) (hi : sh.Makes rs lit i) :
    encode i = op :: operandBytes rs lit := by
  obtain ⟨hop, hoperands, -⟩ := opcode_operands_of_makes h hi
  rw [encode_eq, hop, hoperands]

/-! ### The decoder -/

theorem regOfByte_eq_some {b : Byte} {r : Reg} : regOfByte b = some r ↔ b = byteOfReg r :=
  ⟨fun h => (byteOfReg_of_regOfByte h).symm, fun h => h ▸ regOfByte_byteOfReg r⟩

theorem orBadRegister_ok {o : Option Instr} {bs : List Byte} :
    orBadRegister o bs = .ok (i, rest) ↔ o = some i ∧ bs = rest := by
  cases o <;> simp [orBadRegister]

/-- The operand bytes of an instruction a row makes are read back as that instruction. -/
theorem decodeOperands_of_makes (hi : sh.Makes rs lit i) :
    decodeOperands sh (operandBytes rs lit ++ rest) = .ok (i, rest) := by
  cases hi <;> simp [decodeOperands, operandBytes, orBadRegister, bytesOfWord]

/-- What is read of operand bytes is an instruction the row makes, and the bytes read are those of its operands. -/
theorem makes_of_decodeOperands (h : decodeOperands sh bs = .ok (i, rest)) :
    ∃ rs lit, sh.Makes rs lit i ∧ bs = operandBytes rs lit ++ rest := by
  cases sh <;> simp only [decodeOperands] at h
  case n =>
    cases h
    exact ⟨_, _, .n _, rfl⟩
  case r1 =>
    split at h <;> simp only [orBadRegister_ok, Option.map_eq_some_iff, regOfByte_eq_some, reduceCtorEq] at h
    obtain ⟨⟨a, rfl, rfl⟩, rfl⟩ := h
    exact ⟨_, _, .r1 _ a, rfl⟩
  case r2 =>
    split at h <;> simp only [orBadRegister_ok, Option.bind_eq_some_iff, Option.map_eq_some_iff, regOfByte_eq_some,
      reduceCtorEq] at h
    obtain ⟨⟨a, rfl, b, rfl, rfl⟩, rfl⟩ := h
    exact ⟨_, _, .r2 _ a b, rfl⟩
  case r3 =>
    split at h <;> simp only [orBadRegister_ok, Option.bind_eq_some_iff, Option.map_eq_some_iff, regOfByte_eq_some,
      reduceCtorEq] at h
    obtain ⟨⟨a, rfl, b, rfl, c, rfl, rfl⟩, rfl⟩ := h
    exact ⟨_, _, .r3 _ a b c, rfl⟩
  case l =>
    split at h <;> cases h
    exact ⟨_, _, .l _ _, by simp [operandBytes]⟩
  case rl =>
    split at h <;> simp only [orBadRegister_ok, Option.map_eq_some_iff, regOfByte_eq_some, reduceCtorEq] at h
    obtain ⟨⟨a, rfl, rfl⟩, rfl⟩ := h
    exact ⟨_, _, .rl _ a _, by simp [operandBytes]⟩

/-- The bytes of an instruction decode to it under its canonical name (30_encoding.md R74). -/
theorem decode_encode (i : Instr) (rest : List Byte) : decode (encode i ++ rest) = .ok (i.canonical, rest) := by
  obtain ⟨sh, hsh, hi⟩ := exists_makes i
  simp only [encode_eq, List.cons_append, decode, hsh]
  exact decodeOperands_of_makes hi

/-- The decoder answers a well-formed instruction exactly where the bytes start with its encoding. -/
theorem decode_eq_ok : decode bs = .ok (i, rest) ↔ i.wellFormed = true ∧ bs = encode i ++ rest := by
  rw [wellFormed_iff]
  constructor
  · intro h
    unfold decode at h
    split at h
    · cases h
    · split at h
      · cases h
      · rename_i hsh
        obtain ⟨rs, lit, hi, rfl⟩ := makes_of_decodeOperands h
        obtain ⟨-, -, hcanonical⟩ := opcode_operands_of_makes hsh hi
        exact ⟨hcanonical, by rw [encode_of_makes hsh hi, List.cons_append]⟩
  · rintro ⟨hcanonical, rfl⟩
    rw [decode_encode, hcanonical]

end Sys2Proof

namespace Sys2Proof.Machine

variable {m : Memory} {a : Int} {i : Instr}

/-! ### The decoder at an address -/

/-- A range of bytes is its first part and the rest. -/
theorem bytes_add (m : Memory) (a n k : Nat) : m.bytes a (n + k) = m.bytes a n ++ m.bytes (a + n) k := by
  induction n generalizing a with
  | zero => simp [Memory.bytes]
  | succ n ih =>
    rw [Nat.add_right_comm]
    simp [Memory.bytes, ih, Nat.add_right_comm a 1 n, Nat.add_assoc]

/-- The decoder at an address inside memory answers what the bytes of the fetch window start with. -/
theorem decodeAt_eq_ok_window :
    m.decodeAt a = .ok i ↔ (0 ≤ a ∧ a < m.size) ∧ ∃ rest, decode (m.fetchWindow a.toNat) = .ok (i, rest) := by
  unfold Memory.decodeAt
  split
  next ha => split <;> simp_all
  next ha => simp [ha]

/-- The decoder at an address answers a well-formed instruction exactly where its bytes stand wholly in memory
(30_encoding.md R71, 40_cycle.md R82). -/
theorem decodeAt_eq_ok :
    m.decodeAt a = .ok i ↔
      i.wellFormed = true ∧ 0 ≤ a ∧ a + i.length ≤ m.size ∧ m.bytes a.toNat i.length = encode i := by
  obtain ⟨hpos, hmax⟩ := length_bounds i
  have hsplit (hfit : i.length ≤ min 6 (m.size - a.toNat)) : ∃ n, m.fetchWindow a.toNat =
      m.bytes a.toNat i.length ++ m.bytes (a.toNat + i.length) n := by
    obtain ⟨n, hn⟩ := Nat.exists_eq_add_of_le hfit
    exact ⟨n, by rw [Memory.fetchWindow, hn, bytes_add]⟩
  simp only [decodeAt_eq_ok_window, decode_eq_ok]
  constructor
  · rintro ⟨⟨h0, hlt⟩, rest, hwf, hwindow⟩
    have hlen : min 6 (m.size - a.toNat) = i.length + rest.length := by
      simpa [Memory.fetchWindow] using congrArg List.length hwindow
    obtain ⟨n, hn⟩ := hsplit (by omega)
    have hbytes := (List.append_inj (hn.symm.trans hwindow) (by simp)).1
    exact ⟨hwf, h0, by omega, hbytes⟩
  · rintro ⟨hwf, h0, hend, hbytes⟩
    obtain ⟨n, hn⟩ := hsplit (by omega)
    exact ⟨⟨h0, by omega⟩, _, hwf, by rw [hn, hbytes]⟩

/-- Every row of the opcode map is encoded as R74's table says. -/
theorem encodesAsTable_of_shapeOf {op : Byte} {sh : Shape} (h : shapeOf op = some sh) : EncodesAsTable op sh := by
  cases sh
  case n => exact encode_of_makes h (.n _)
  case r1 => exact fun A => encode_of_makes h (.r1 _ A)
  case r2 => exact fun A B => encode_of_makes h (.r2 _ A B)
  case r3 => exact fun A B C => encode_of_makes h (.r3 _ A B C)
  case l => exact fun lit => encode_of_makes h (.l _ lit)
  case rl => exact fun A lit => encode_of_makes h (.rl _ A lit)

/-- Settles O1: a row encodes what it makes as its opcode and operand bytes, and the decoder at an address answers an
instruction exactly where its encoding stands. -/
theorem encoderIsInverseOfDecoder : Obligations.EncoderIsInverseOfDecoder := by
  refine ⟨fun _ _ => encodesAsTable_of_shapeOf, ?law, ?converse⟩
  case law => exact fun m a i hwf h0 hend hbytes => decodeAt_eq_ok.2 ⟨hwf, h0, hend, hbytes⟩
  case converse =>
    intro m a i h
    obtain ⟨-, -, -, hbytes⟩ := decodeAt_eq_ok.1 h
    exact hbytes

/-- Settles O5: the encoding written is the encoding read. -/
theorem writtenCodeIsFetched : Obligations.WrittenCodeIsFetched := by
  intro m a i hwf hi hend
  rw [← encode_length] at hend
  refine decodeAt_eq_ok.2 ⟨hi, by omega, ?_, ?_⟩
  · rw [setBytes_size, ← encode_length]
    omega
  · rw [Int.toNat_natCast, ← encode_length]
    exact bytes_setBytes hwf hend

/-! ### A word of the opcode table placed for the fetch -/

@[simp] theorem tableBytes_length (nbits w : Nat) : (tableBytes nbits w).length = 6 := rfl

theorem decodeTableWord_eq_some {nbits w : Nat} :
    decodeTableWord nbits w = some i ↔ ∃ rest, decode (tableBytes nbits w) = .ok (i, rest) := by
  unfold decodeTableWord
  split <;> simp_all

/-- Where six bytes fit, the word placed is the whole fetch window. -/
theorem fetchWindow_setBytes_six {n : Nat} {bs : List Byte} (hwf : m.wf = true) (hbs : bs.length = 6)
    (hend : n + 6 ≤ m.size) : (m.setBytes n bs).fetchWindow n = bs := by
  have hwindow : min 6 (m.size - n) = bs.length := by omega
  rw [Memory.fetchWindow, setBytes_size, hwindow]
  exact bytes_setBytes hwf (by omega)

/-- A non-negative signed reading is the unsigned one. -/
theorem toNat_s32 {w : Word} (h : 0 ≤ s32 w) : (s32 w).toNat = w.toNat := by
  have hlt := w.isLt
  unfold s32 at h ⊢
  rw [BitVec.toInt_eq_toNat_cond] at h ⊢
  split at h <;> omega

@[simp] theorem withFetchWord_reg (s : State) (nbits w : Nat) (r : Reg) :
    (s.withFetchWord nbits w).reg r = s.reg r := rfl

/-- Where the pc has six bytes before it, all six bytes of the word are placed there. -/
theorem withFetchWord_mem {s : State} (nbits w : Nat) (hend : (s.reg Reg.pc).toNat + 6 ≤ s.mem.size) :
    (s.withFetchWord nbits w).mem = s.mem.setBytes (s.reg Reg.pc).toNat (tableBytes nbits w) := by
  simp only [State.withFetchWord]
  rw [List.take_of_length_le (by rw [tableBytes_length]; omega)]

/-- Settles O4: the fetch window is the six bytes placed, which are those the table decoder reads. -/
theorem placedWordIsFetched : Obligations.PlacedWordIsFetched := by
  intro s nbits w i hwf h0 hend hdecode
  have hpc := toNat_s32 h0
  have hfit : (s.reg Reg.pc).toNat + 6 ≤ s.mem.size := by omega
  obtain ⟨rest, hrest⟩ := decodeTableWord_eq_some.1 hdecode
  refine decodeAt_eq_ok_window.2 ⟨⟨h0, ?inside⟩, rest, ?window⟩
  case inside =>
    rw [withFetchWord_reg, withFetchWord_mem nbits w hfit, setBytes_size]
    omega
  case window =>
    rw [withFetchWord_reg, hpc, withFetchWord_mem nbits w hfit,
      fetchWindow_setBytes_six hwf (tableBytes_length nbits w) hfit, hrest]

end Sys2Proof.Machine
end

section
/-! PROOF. An assembled image decodes back into the program's instructions, one for each source line (O56). -/

namespace Sys2Proof.Machine

@[simp] theorem encodeAll_cons (i : Instr) (is : List Instr) : encodeAll (i :: is) = encode i ++ encodeAll is := rfl

/-- The encodings of instructions, one after another, decode to them under the opcode table's names
(30_encoding.md R74). -/
theorem decodeAll_encodeAll {fuel : Nat} {is : List Instr} (hfuel : (encodeAll is).length ≤ fuel) :
    decodeAll fuel (encodeAll is) = .ok (is.map Instr.canonical) := by
  induction is generalizing fuel with
  | nil => cases fuel <;> rfl
  | cons i is ih =>
    have hdecode := decode_encode i (encodeAll is)
    rw [encodeAll_cons, encode_eq, List.cons_append] at hfuel ⊢
    rw [encode_eq, List.cons_append] at hdecode
    cases fuel with
    | zero => simp at hfuel
    | succ fuel =>
      have hrest := ih (fuel := fuel) (by simp at hfuel; omega)
      simp [decodeAll, hdecode, hrest]

/-- What pass 2 can do to a line that starts a program: its tokens are an instruction whose literal resolves, and the
lines after it pass too (45_assembler.md R181). -/
theorem passTwo_cons_ok {t : LabelTable} {l : SourceLine} {ls : List SourceLine} {ils : List InstrLine}
    (h : passTwo t (l :: ls) = .ok ils) :
    ∃ toks b il ils', tokenize l.text = .ok toks ∧ bodyOfTokens (splitLabels toks).2 = .ok b ∧
      resolveBody t b = some il ∧ passTwo t ls = .ok ils' ∧ ils = il :: ils' := by
  simp only [passTwo] at h
  split at h
  · cases h
  split at h
  · cases h
  split at h
  · cases h
  split at h <;> cases h
  exact ⟨_, _, _, _, ‹_›, ‹_›, ‹_›, ‹_›, rfl⟩

/-- Pass 2 gives one instruction line for each source line. -/
theorem passTwo_length {t : LabelTable} {ls : List SourceLine} {ils : List InstrLine} (h : passTwo t ls = .ok ils) :
    ils.length = ls.length := by
  induction ls generalizing ils with
  | nil => cases h; rfl
  | cons l ls ih =>
    obtain ⟨_, _, _, ils', -, -, -, hrest, rfl⟩ := passTwo_cons_ok h
    simp [ih hrest]

/-- The instructions of a program are as many as its source lines. -/
theorem assembleInstrs_length {src : List Char} {is : List Instr} (h : assembleInstrs src = .ok is) :
    is.length = (sourceLines src).length := by
  unfold assembleInstrs at h
  split at h
  · cases h
  split at h <;> cases h
  rw [List.length_map, passTwo_length ‹_›]

/-- An image is the encodings of the program's instructions (R184). -/
theorem assemble_ok {src : List Char} {image : List Byte} (h : assemble src = .ok image) :
    ∃ is, assembleInstrs src = .ok is ∧ image = encodeAll is := by
  unfold assemble at h
  split at h <;> cases h
  exact ⟨_, ‹_›, rfl⟩

/-- Settles O56: by induction over the instructions of the program. -/
theorem assembledImageDecodesBack : Obligations.AssembledImageDecodesBack := by
  intro src image h
  obtain ⟨is, his, rfl⟩ := assemble_ok h
  exact ⟨is, his, assembleInstrs_length his, rfl, decodeAll_encodeAll le_rfl⟩

end Sys2Proof.Machine
end

section
/-! PROOF. An instruction printed and assembled gives its own encoding: the tokens of its printed text, word by word,
and what the two passes make of them (O58). -/

namespace Sys2Proof.Machine

variable {i : Instr} {w : List Char} {tok : Token} {e col : Nat} {rs : List Reg} {lit : Option Word}

/-! ### A text and the one token it is -/

/-- From Start, the text `w` is the token `tok`, whether the line ends after it or a space follows (45_assembler.md
R169, R174). -/
structure Spells (w : List Char) (tok : Token) : Prop where
  /-- no character of it ends a token, or a line -/
  solid : ∀ c ∈ w, c.isWhitespace = false
  /-- after it a token is pending, which the end of the line and a space both emit -/
  scan : ∀ (e col : Nat) (rest : List Char), ∃ (st : TokState) (col' : Nat),
    tokensFrom e .start col (w ++ rest) = tokensFrom e st col' rest ∧
      st.flush e = .ok [tok] ∧ st.next col' ' ' = .go .start [tok]

/-- A character that emits nothing leads to the tokens of the rest from the next state. -/
theorem tokensFrom_cons_silent {st st' : TokState} {c : Char} (h : st.next col c = .go st' []) (rest : List Char) :
    tokensFrom e st col (c :: rest) = tokensFrom e st' (col + 1) rest := by
  simp only [tokensFrom, h]
  split <;> simp_all

/-- Characters that only lengthen a state's text are all added to it. -/
theorem tokensFrom_accumulate {mk : List Char → TokState} {p : Char → Bool}
    (hmk : ∀ text col c, p c = true → (mk text).next col c = .go (mk (text ++ [c])) [])
    (hw : w.all p = true) (text rest : List Char) :
    tokensFrom e (mk text) col (w ++ rest) = tokensFrom e (mk (text ++ w)) (col + w.length) rest := by
  induction w generalizing text col with
  | nil => simp
  | cons c w ih =>
    obtain ⟨hc, hw⟩ : p c = true ∧ w.all p = true := by simpa using hw
    rw [List.cons_append, tokensFrom_cons_silent (hmk text col c hc), ih hw]
    simp [Nat.add_assoc, Nat.add_comm 1]

/-- Words with single spaces between them are their tokens. -/
theorem tokensFrom_words {ws : List (List Char)} {toks : List Token} (hw : Spells w tok)
    (hws : List.Forall₂ Spells ws toks) (e col : Nat) :
    tokensFrom e .start col (w ++ ws.flatMap (' ' :: ·)) = .ok (tok :: toks) := by
  induction hws generalizing w tok col with
  | nil =>
    obtain ⟨st, col', hscan, hflush, -⟩ := hw.scan e col []
    rw [List.flatMap_nil, hscan, tokensFrom, hflush]
  | cons hw' _ ih =>
    obtain ⟨st, col', hscan, -, hspace⟩ := hw.scan e col _
    rw [hscan, List.flatMap_cons, List.cons_append, tokensFrom, hspace]
    simp only [ih hw', List.singleton_append]

/-! ### Mnemonics -/

/-- A character that may follow in an Identifier (R171); `\x22` is the double quote. -/
def identifierChar (c : Char) : Bool :=
  !c.isWhitespace && c != ':' && c != '#' && c != '\x22' && c != '-'

/-- A character an Identifier may start with (R169). -/
def identifierStart (c : Char) : Bool := identifierChar c && !c.isDigit && c != '$'

theorem nextFromStart_identifier {c : Char} (h : identifierStart c = true) :
    TokState.next .start col c = .go (.labelOrIdentifier [c]) [] := by
  simp_all [identifierStart, identifierChar, TokState.next, nextFromStart]

theorem next_identifier (text : List Char) (col : Nat) (c : Char) (h : identifierChar c = true) :
    TokState.next (.labelOrIdentifier text) col c = .go (.labelOrIdentifier (text ++ [c])) [] := by
  simp_all [identifierChar, TokState.next]

/-- An identifier's text is one token. -/
theorem spells_word {c : Char} {cs : List Char} (hc : identifierStart c = true) (hcs : cs.all identifierChar = true) :
    Spells (c :: cs) (Token.ofWord (c :: cs)) where
  solid := by
    rw [List.all_eq_true] at hcs
    simp_all [identifierStart, identifierChar]
  scan e col rest := by
    refine ⟨.labelOrIdentifier (c :: cs), col + 1 + cs.length, ?_, rfl, rfl⟩
    rw [List.cons_append, tokensFrom_cons_silent (nextFromStart_identifier hc)]
    exact tokensFrom_accumulate next_identifier hcs [c] rest

/-- The mnemonic printed is that of the opcode's row (30_encoding.md R73). -/
theorem shapeOfMnemonic_mnemonicText (i : Instr) : shapeOfMnemonic (mnemonicText i) = shapeOf i.opcode := by
  cases i <;> rfl

/-- A printed mnemonic is a Command token. -/
theorem spells_mnemonicText (i : Instr) : Spells (mnemonicText i) { kind := .command, text := mnemonicText i } := by
  cases i <;> exact spells_word rfl rfl

/-! ### Registers -/

/-- The token of a register's printed name: what follows the `$`. -/
def regToken (r : Reg) : Token := { kind := .register, text := (printReg r).tail }

theorem regToken_reg (r : Reg) : (regToken r).reg = some r := by
  revert r
  decide

/-- Printed names are in upper case already (R167). -/
theorem upper_regToken_text (r : Reg) : upper (regToken r).text = (regToken r).text := by
  fin_cases r <;> rfl

theorem ofRegister_regToken (r : Reg) : Token.ofRegister (regToken r).text = some (regToken r) := by
  have hname : regOfText (regToken r).text = some r := regToken_reg r
  rw [Token.ofRegister, upper_regToken_text, hname]
  rfl

theorem printReg_eq (r : Reg) : printReg r = '$' :: (regToken r).text := rfl

/-- A character that may stand after a register's `$` (R173). -/
def registerChar (c : Char) : Bool := !c.isWhitespace && c != '#'

theorem next_register (column : Nat) (text : List Char) (col : Nat) (c : Char) (h : registerChar c = true) :
    TokState.next (.register text column) col c = .go (.register (text ++ [c]) column) [] := by
  simp_all [registerChar, TokState.next]

theorem registerChar_regToken (r : Reg) : (regToken r).text.all registerChar = true := by
  fin_cases r <;> rfl

/-- A register's printed name is one Register token. -/
theorem spells_printReg (r : Reg) : Spells (printReg r) (regToken r) where
  solid := by
    have hname := registerChar_regToken r
    simp_all [printReg_eq, registerChar]
  scan e col rest := by
    refine ⟨.register (regToken r).text col, col + 1 + (regToken r).text.length, ?_, ?_, ?_⟩
    · rw [printReg_eq, List.cons_append, tokensFrom_cons_silent (st' := .register [] col) rfl]
      exact tokensFrom_accumulate (next_register col) (registerChar_regToken r) [] rest
    · simp [TokState.flush, ofRegister_regToken]
    · simp [TokState.next, registerMove, ofRegister_regToken]

/-! ### Numbers -/

theorem natOfDigits_toDigits (n : Nat) : natOfDigits (Nat.toDigits 10 n) = n := by
  rw [natOfDigits, ← Nat.ofDigitChars_eq_foldl, Nat.ofDigitChars_ten_toDigits]

/-- The decimal digits of a natural number: one digit, and digits after it. -/
theorem exists_digits (n : Nat) :
    ∃ d ds, Nat.toDigits 10 n = d :: ds ∧ d.isDigit = true ∧ ds.all Char.isDigit = true := by
  obtain ⟨d, ds, h⟩ := List.exists_cons_of_ne_nil (Nat.toDigits_ne_nil (n := n) (b := 10))
  have hall : ∀ c ∈ d :: ds, c.isDigit = true := fun c hc =>
    Nat.isDigit_of_mem_toDigits (by decide) (by decide) (h ▸ hc)
  exact ⟨d, ds, h, by simpa using hall⟩

/-- A digit is none of the characters that mean something else to the tokenizer. -/
theorem digit_ne {c : Char} (h : c.isDigit = true) :
    c.isWhitespace = false ∧ c ≠ '#' ∧ c ≠ '\x22' ∧ c ≠ '-' := by
  refine ⟨?_, ?_, ?_, ?_⟩
  · rw [Bool.eq_false_iff]
    intro hspace
    simp only [Char.isWhitespace, Bool.or_eq_true, decide_eq_true_eq] at hspace
    obtain ((rfl | rfl) | rfl) | rfl := hspace <;> exact absurd h (by decide)
  all_goals
    rintro rfl
    exact absurd h (by decide)

theorem next_number (text : List Char) (col : Nat) (c : Char) (h : c.isDigit = true) :
    TokState.next (.number text) col c = .go (.number (text ++ [c])) [] := by
  simp [TokState.next, h]

theorem nextFromStart_digit {c : Char} (h : c.isDigit = true) :
    TokState.next .start col c = .go (.number [c]) [] := by
  obtain ⟨hspace, hhash, hquote, -⟩ := digit_ne h
  simp [TokState.next, nextFromStart, h, hspace, hhash, hquote]

theorem nextFromNegative_digit {c : Char} (h : c.isDigit = true) :
    TokState.next .negativeNumber col c = .go (.number ['-', c]) [] := by
  simp [TokState.next, h]

/-- A string of digits is one Number token, and so is one with a sign (45_assembler.md R170). -/
theorem spells_digits {d : Char} {ds : List Char} (hd : d.isDigit = true) (hds : ds.all Char.isDigit = true) :
    Spells (d :: ds) (Token.ofNumber (d :: ds)) ∧ Spells ('-' :: d :: ds) (Token.ofNumber ('-' :: d :: ds)) := by
  have hsolid : ∀ c ∈ d :: ds, c.isWhitespace = false :=
    List.forall_mem_cons.2 ⟨(digit_ne hd).1, fun c hc => (digit_ne (List.all_eq_true.1 hds c hc)).1⟩
  have hsolid' : ∀ c ∈ '-' :: d :: ds, c.isWhitespace = false := List.forall_mem_cons.2 ⟨rfl, hsolid⟩
  refine ⟨⟨hsolid, fun e col rest => ⟨.number (d :: ds), col + 1 + ds.length, ?_, rfl, rfl⟩⟩,
    ⟨hsolid', fun e col rest => ⟨.number ('-' :: d :: ds), col + 1 + 1 + ds.length, ?_, rfl, rfl⟩⟩⟩
  · rw [List.cons_append, tokensFrom_cons_silent (nextFromStart_digit hd)]
    exact tokensFrom_accumulate next_number hds [d] rest
  · rw [List.cons_append, List.cons_append, tokensFrom_cons_silent (st' := .negativeNumber) rfl,
      tokensFrom_cons_silent (nextFromNegative_digit hd)]
    exact tokensFrom_accumulate next_number hds ['-', d] rest

/-- A printed integer is one Number token. -/
theorem spells_printInt (n : Int) : Spells (printInt n) (Token.ofNumber (printInt n)) := by
  obtain ⟨d, ds, hdigits, hd, hds⟩ := exists_digits n.natAbs
  obtain ⟨hnat, hneg⟩ := spells_digits hd hds
  rw [printInt, hdigits]
  split
  · exact hneg
  · exact hnat

theorem intOfText_printInt (n : Int) : intOfText (printInt n) = n := by
  obtain ⟨d, ds, hdigits, hd, -⟩ := exists_digits n.natAbs
  have hvalue : natOfDigits (d :: ds) = n.natAbs := hdigits ▸ natOfDigits_toDigits n.natAbs
  rw [printInt, hdigits]
  split
  · rw [intOfText, hvalue]
    omega
  · rw [intOfText, hvalue]
    · omega
    · rintro _ ⟨⟩
      exact absurd hd (by decide)

/-- The literal's printed value is read back. -/
theorem number_printInt (v : Word) : (Token.ofNumber (printInt (s32 v))).number = some v := by
  have hlo : -(2 ^ 31) ≤ s32 v := BitVec.le_toInt v
  have hhi : s32 v < 2 ^ 31 := BitVec.toInt_lt
  simp only [Token.number, Token.ofNumber, intOfText_printInt]
  rw [if_pos ⟨trivial, hlo, hhi⟩, wrap32_s32]

/-! ### The printed instruction, word by word -/

/-- The words of a printed instruction after its mnemonic. -/
def operandTexts (rs : List Reg) (lit : Option Word) : List (List Char) :=
  rs.map printReg ++ (lit.map fun v => printInt (s32 v)).toList

/-- The tokens of a printed instruction after its Command. -/
def operandTokens (rs : List Reg) (lit : Option Word) : List Token :=
  rs.map regToken ++ (lit.map fun v => Token.ofNumber (printInt (s32 v))).toList

theorem printInstr_eq (i : Instr) :
    printInstr i = mnemonicText i ++ (operandTexts i.operands.1 i.operands.2).flatMap (' ' :: ·) := by
  cases h : i.operands.2 <;> simp [printInstr, operandTexts, h, List.flatMap_map]

/-- Each operand's text is its token. -/
theorem spells_operandTexts (rs : List Reg) (lit : Option Word) :
    List.Forall₂ Spells (operandTexts rs lit) (operandTokens rs lit) := by
  refine List.rel_append ?regs ?literal
  case regs =>
    rw [List.forall₂_map_left_iff, List.forall₂_map_right_iff, List.forall₂_same]
    exact fun r _ => spells_printReg r
  case literal =>
    cases lit with
    | none => exact .nil
    | some v => exact .cons (spells_printInt (s32 v)) .nil

/-- The tokens of a printed instruction: its mnemonic and its operands. -/
theorem tokenize_printInstr (i : Instr) :
    tokenize (printInstr i) = .ok ({ kind := .command, text := mnemonicText i } ::
      operandTokens i.operands.1 i.operands.2) := by
  rw [tokenize]
  generalize Config.endOfLineColumn (printInstr i) = e
  rw [printInstr_eq]
  exact tokensFrom_words (spells_mnemonicText i) (spells_operandTexts _ _) e 1

/-! ### The one line of a printed instruction -/

/-- A text with no newline in it is one line. -/
theorem splitLines_eq_singleton {text : List Char} (h : '\n' ∉ text) : splitLines text = [text] := by
  induction text with
  | nil => rfl
  | cons c cs ih =>
    obtain ⟨hc, hcs⟩ : '\n' ≠ c ∧ '\n' ∉ cs := by simpa using h
    simp [splitLines, ih hcs, hc.symm]

theorem newline_notMem_of_spells (h : Spells w tok) : '\n' ∉ w :=
  fun hmem => absurd (h.solid _ hmem) (by decide)

/-- Words with single spaces between them are one line. -/
theorem newline_notMem_words {ws : List (List Char)} {toks : List Token} (hw : Spells w tok)
    (hws : List.Forall₂ Spells ws toks) : '\n' ∉ w ++ ws.flatMap (' ' :: ·) := by
  induction hws generalizing w tok with
  | nil => simpa using newline_notMem_of_spells hw
  | cons hw' _ ih => simpa [newline_notMem_of_spells hw] using ih hw'

theorem newline_notMem_printInstr (i : Instr) : '\n' ∉ printInstr i := by
  rw [printInstr_eq]
  exact newline_notMem_words (spells_mnemonicText i) (spells_operandTexts _ _)

/-- A printed instruction starts with a letter, so it is neither blank nor a comment (45_assembler.md R165). -/
theorem ignoredLine_printInstr (i : Instr) : ignoredLine (printInstr i) = false := by
  cases i <;> rfl

theorem sourceLines_printInstr (i : Instr) :
    sourceLines (printInstr i) = [{ number := 1, text := printInstr i }] := by
  simp [sourceLines, splitLines_eq_singleton (newline_notMem_printInstr i), numberLines, ignoredLine_printInstr]

/-! ### The two passes over it -/

/-- The printed operands of an instruction a row makes are that instruction, with nothing left for the patch
(R178, R180). -/
theorem bodyOfOperands_of_makes {sh : Shape} (h : sh.Makes rs lit i) (t : LabelTable) :
    ∃ b, bodyOfOperands sh (operandTokens rs lit) = some b ∧ resolveBody t b = some (.done i) := by
  cases h
  case n | r1 | r2 | r3 =>
    exact ⟨.complete _, by simp [bodyOfOperands, operandTokens, regToken_reg], rfl⟩
  case l f v =>
    exact ⟨.lacking f (Token.ofNumber (printInt (s32 v))), rfl, by simp only [resolveBody, number_printInt]⟩
  case rl f a v =>
    refine ⟨.lacking (f a) (Token.ofNumber (printInt (s32 v))), ?_, by simp only [resolveBody, number_printInt]⟩
    simp [bodyOfOperands, operandTokens, regToken_reg, Token.isLiteral, Token.ofNumber]

/-- The tokens of a printed instruction are that instruction, under its canonical name. -/
theorem bodyOfTokens_printInstr (i : Instr) (t : LabelTable) :
    ∃ b, bodyOfTokens ({ kind := .command, text := mnemonicText i } ::
        operandTokens i.operands.1 i.operands.2) = .ok b ∧
      resolveBody t b = some (.done i.canonical) := by
  obtain ⟨sh, hsh, hi⟩ := exists_makes i
  obtain ⟨b, hb, hresolve⟩ := bodyOfOperands_of_makes hi t
  exact ⟨b, by simp [bodyOfTokens, shapeOfMnemonic_mnemonicText, hsh, hb], hresolve⟩

/-- A printed instruction assembles into that instruction, under its canonical name. -/
theorem assembleInstrs_printInstr (i : Instr) : assembleInstrs (printInstr i) = .ok [i.canonical] := by
  obtain ⟨b, hb, hresolve⟩ := bodyOfTokens_printInstr i []
  have hone : passOne 0 [] (sourceLines (printInstr i)) = .ok [] := by
    simp [sourceLines_printInstr, passOne, tokenize_printInstr, splitLabels, addLabels, hb]
  have htwo : passTwo [] (sourceLines (printInstr i)) = .ok [.done i.canonical] := by
    simp [sourceLines_printInstr, passTwo, tokenize_printInstr, splitLabels, hb, hresolve]
  simp [assembleInstrs, hone, htwo, patchLine]

/-- Settles O58: the printed text is one line of the instruction's own tokens, and a canonical name encodes as the
instruction does. -/
theorem printedInstructionAssembles : Obligations.PrintedInstructionAssembles := by
  intro i
  rw [assemble, assembleInstrs_printInstr]
  simp [encodeAll]

end Sys2Proof.Machine
end

section
/-! PROOF. What the execute part of every instruction answers, said once, and what follows for one step: its faults are
precise, and an instruction keeps the registers it does not name (O6, O7, O10, O19, O42). -/

namespace Sys2Proof.Machine

variable {s t u : State} {i : Instr} {k : Cause}

/-- The console read `i` finds its queue empty (44_console.md R150). -/
def ReadsEmptyQueue (i : Instr) (s : State) : Prop :=
  (i = .input ∧ s.inInts = []) ∨ (i = .inputChar ∧ s.inChars = [])

/-- The causes an execute part can raise: those past the fetch in the order of 40_cycle.md R88. -/
def ExecuteCause (c : Cause) : Prop := c = .divZero ∨ c = .memRange

/-- The four answers of an execute part: no transition (40_cycle.md R89), a runtime fault (R86), the end of the
instruction with writes to its own destinations only (R83, R84), and HALT (42_control.md R125). -/
inductive ExecAnswer (i : Instr) (s : State) : Host.Outcome State Fault Refusal → Prop where
  | blocked (h : ReadsEmptyQueue i s) : ExecAnswer i s (.fault .consoleBlocked)
  | raise (c : Cause) (hc : ExecuteCause c) : ExecAnswer i s (.next (s.raise c))
  | retire {u : State} (hu : ExecPart s u) (len : Nat) (ws : List (Reg × Word))
      (hws : ∀ w ∈ ws, w.1 ∈ destRegs i) : ExecAnswer i s (.next (u.retire len ws))
  | halt (hi : i = .halt) : ExecAnswer i s (.next { s.retire 1 [] with active := false })

/-! ### Every execute part gives one of these answers -/

/-- An instruction with one check answers its own state, or the fault. -/
theorem execAnswer_orRaise {o : Option State} (hk : ExecuteCause k)
    (ho : ∀ u, o = some u → ExecAnswer i s (.next u)) : ExecAnswer i s (orRaise s k o) := by
  cases o with
  | none => exact .raise k hk
  | some u => exact ho u rfl

/-- The same, where the check is an access and the instruction goes on with the value `x` the access gives. -/
theorem execAnswer_orRaise_map {α : Type} {o : Option α} {f : α → State} (hk : ExecuteCause k)
    (hf : ∀ x, o = some x → ExecAnswer i s (.next (f x))) : ExecAnswer i s (orRaise s k (o.map f)) := by
  refine execAnswer_orRaise hk fun u hu => ?_
  obtain ⟨x, hx, rfl⟩ := Option.map_eq_some_iff.1 hu
  exact hf x hx

/-- A conditional transfer writes the pc or nothing. -/
theorem execAnswer_branchTo (s : State) (len : Nat) (taken : Bool) (target : Word) (hi : Reg.pc ∈ destRegs i) :
    ExecAnswer i s (branchTo s len taken target) := by
  refine .retire .same _ _ fun w hw => ?_
  cases taken <;> simp at hw
  exact hw ▸ hi

/-- Every execute part gives one of the answers. -/
theorem exec_answer (i : Instr) (s : State) : ExecAnswer i s (exec i s) := by
  cases i
  case nop => exact .retire .same _ _ (by simp)
  case add | subt | mult | neg | and | or | lshift | rshift | gt | lt | eq | copy | loadLit | set =>
    exact .retire .same _ _ (by simp [destRegs])
  case branch | jump | jumpLit | jumpLabel | branchLit => exact execAnswer_branchTo _ _ _ _ (by simp [destRegs])
  case output | outputChar => exact .retire (.emit _) _ _ (by simp)
  case halt => exact .halt rfl
  case input =>
    simp only [exec, execInput]
    split
    next hq => exact .blocked (.inl ⟨rfl, hq⟩)
    next => exact .retire (.takeInts _) _ _ (by simp [destRegs])
  case inputChar =>
    simp only [exec, execInputChar]
    split
    next hq => exact .blocked (.inr ⟨rfl, hq⟩)
    next => exact .retire (.takeChars _) _ _ (by simp [destRegs])
  case div =>
    refine execAnswer_orRaise (.inl rfl) fun u hu => ?_
    split at hu <;> cases hu
    exact .retire .same _ _ (by simp [destRegs])
  case popStk | load | loadByte =>
    exact execAnswer_orRaise_map (.inr rfl) fun _ _ => .retire .same _ _ (by simp [destRegs])
  case outputStr | coreDump => exact execAnswer_orRaise_map (.inr rfl) fun _ _ => .retire (.emit _) _ _ (by simp)
  case pushStk | store =>
    exact execAnswer_orRaise_map (.inr rfl) fun _ hm => .retire (.storeWord hm) _ _ (by simp [destRegs])
  case storeByte => exact execAnswer_orRaise_map (.inr rfl) fun _ hm => .retire (.storeByte hm) _ _ (by simp)

/-- An answer taken apart from what `exec` is known to give. -/
theorem execAnswer_of_eq {o : Host.Outcome State Fault Refusal} (h : exec i s = o) : ExecAnswer i s o :=
  h ▸ exec_answer i s

/-! ### What the answers say of blocking, of faults and of registers -/

/-- An execute part goes on unless it reads an empty queue. -/
theorem exec_next_or_blocked (i : Instr) (s : State) :
    (∃ t, exec i s = .next t) ∨ (ReadsEmptyQueue i s ∧ exec i s = .fault .consoleBlocked) := by
  generalize exec i s = o, exec_answer i s = hanswer
  cases hanswer with
  | blocked hq => exact .inr ⟨hq, rfl⟩
  | raise | retire | halt => exact .inl ⟨_, rfl⟩

/-- An execute part that goes on from a state with no fault recorded records none, or takes a fault of its own. -/
theorem exec_fault (hs : s.fault = none) (h : exec i s = .next t) :
    t.fault = none ∨ ∃ c, ExecuteCause c ∧ t = s.raise c := by
  cases execAnswer_of_eq h with
  | raise c hc => exact .inr ⟨c, hc, rfl⟩
  | retire hu len ws hws => exact .inl (by rw [retire_fault, hu.sameControl.2, hs])
  | halt hi => exact .inl (by rw [retire_fault, hs])

/-- The execute part outside the registers leaves the registers as they are. -/
theorem ExecPart.reg (h : ExecPart s u) (r : Reg) : u.reg r = s.reg r := by
  cases h <;> rfl

/-- Settles O19: the writes that end an instruction name its destinations only, and a fault writes no register. -/
theorem registersOutsideDestinationsKept : Obligations.RegistersOutsideDestinationsKept := by
  intro i s t h r hr hpc
  cases execAnswer_of_eq h with
  | raise c hc => exact raise_reg s r c
  | retire hu len ws hws =>
    have hne : ∀ w ∈ ws, w.1 ≠ r := fun w hw e => hr (e ▸ hws w hw)
    rw [retire_reg _ len ws r hne hpc, hu.reg]
  | halt hi => exact retire_reg s 1 [] r (by simp) hpc

/-! ### One step -/

/-- An enabled step whose fetch gives an instruction runs it (40_cycle.md R87). -/
theorem step_fetch_ok (ha : s.active = true) (hf : s.fault = none) (h : s.fetch = .ok i) : step s = exec i s := by
  simp [step, ha, hf, h]

/-- The step of a state with a fault recorded (R80). -/
theorem step_faulted (hf : s.fault ≠ none) : step s = .fault .faulted := by
  simp [step, Option.isSome_iff_ne_none, hf]

/-- The step of an inactive state with no fault recorded (R80). -/
theorem step_halted (ha : s.active = false) (hf : s.fault = none) : step s = .fault .halted := by
  simp [step, ha, hf]

/-- A state is faulted exactly when a fault is recorded (70_reset_and_hazards.md R223). -/
theorem status_faulted_iff {f : FaultRecord} : s.status = .faulted f ↔ s.fault = some f := by
  unfold State.status
  cases s.fault with
  | some g => simp
  | none => cases s.active <;> cases s.awaitsInt <;> cases s.awaitsChar <;> simp

/-- A state is halted exactly when it is inactive with no fault recorded (R80, R223). -/
theorem status_halted_iff : s.status = .halted ↔ s.fault = none ∧ s.active = false := by
  unfold State.status
  cases s.fault with
  | some g => simp
  | none => cases s.active <;> cases s.awaitsInt <;> cases s.awaitsChar <;> simp

/-- Settles O6: the fetch gives an instruction exactly where its encoding stands. -/
theorem stepRunsDecodedInstruction : Obligations.StepRunsDecodedInstruction :=
  ⟨fun _ _ ha hf hfetch => step_fetch_ok ha hf hfetch,
    fun _ _ ha hf hwf h0 hend hbytes => step_fetch_ok ha hf (decodeAt_eq_ok.2 ⟨hwf, h0, hend, hbytes⟩)⟩

/-- Settles O7: a step that goes on started from an active state with no fault recorded. -/
theorem stoppedEngineTakesNoStep : Obligations.StoppedEngineTakesNoStep := by
  refine fun s => ⟨fun ha t h => ?_, fun hf t h => hf (step_next h).1, fun ha hf => status_halted_iff.2 ⟨hf, ha⟩,
    fun f _ hf => status_faulted_iff.2 hf⟩
  obtain ⟨-, hactive, -⟩ := step_next h
  simp [ha] at hactive

/-- Settles O42: HALT ends like an instruction that writes no register, and then clears the flag. -/
theorem haltClearsActive : Obligations.HaltClearsActive := by
  intro s
  refine ⟨rfl, _, rfl, rfl, retire_fault s 1 [], retire_nil_writes s 1, ⟨by simp, by simp⟩, by simp [SameConsole],
    fun hf => ⟨status_halted_iff.2 ⟨?_, rfl⟩, (stoppedEngineTakesNoStep _).1 rfl⟩⟩
  exact (retire_fault s 1 []).trans hf

/-- The record of a fault just taken names the pc, and nothing else changed. -/
theorem raise_precise {f : FaultRecord} (hf : (s.raise k).fault = some f) :
    f.addr = s.reg Reg.pc ∧ TookFault f.cause s (s.raise k) := by
  cases hf
  exact ⟨rfl, raise_tookFault s k⟩

/-- Settles O10: a fault recorded by a step was raised by the fetch or by the execute part. -/
theorem faultingStepIsPrecise : Obligations.FaultingStepIsPrecise := by
  intro s t f hstep hf
  obtain ⟨hnone, -, ⟨c, -, rfl⟩ | ⟨i, -, hexec⟩⟩ := step_next hstep
  · exact raise_precise hf
  · obtain hnone' | ⟨c, -, rfl⟩ := exec_fault hnone hexec
    · simp [hnone'] at hf
    · exact raise_precise hf

end Sys2Proof.Machine
end

section
/-! PROOF. The pc at the end of an instruction: the last write to register 18, or the advance, which stays in memory's
range (O13, O14). -/

namespace Sys2Proof.Machine

variable {r : Reg} {ws : List (Reg × Word)}

/-- A register after the writes of an instruction: what the last write that names it gives, or what it held
(40_cycle.md R83). -/
theorem setRegs_reg_eq (s : State) (ws : List (Reg × Word)) (r : Reg) :
    (s.setRegs ws).reg r = ((ws.filter fun w => w.1 == r).getLast?.map Prod.snd).getD (s.reg r) := by
  induction ws generalizing s with
  | nil => rfl
  | cons w ws ih =>
    obtain ⟨d, v⟩ := w
    rw [setRegs_cons, ih]
    by_cases hd : d = r
    · cases hlast : (ws.filter fun w => w.1 == r).getLast? <;> simp [hd, hlast, List.getLast?_cons]
    · simp [hd, Ne.symm hd]

/-- No write names the pc exactly where the list of those that do is empty. -/
theorem filter_pc_eq_nil : (ws.filter fun w => w.1 == Reg.pc) = [] ↔ ¬ ws.any (fun w => w.1 == Reg.pc) = true := by
  simp only [List.filter_eq_nil_iff, List.any_eq_true, not_exists, not_and]

/-- Settles O13: where a write names the pc the last of them stays, and where none does the advance is written after
them. -/
theorem lastPcWriteWins : Obligations.LastPcWriteWins := by
  intro s len ws
  unfold State.retire
  split
  next hany =>
    rw [markStarted_reg, setRegs_reg_eq]
    cases hlast : (ws.filter fun w => w.1 == Reg.pc).getLast? with
    | some w => rfl
    | none => exact absurd hany (filter_pc_eq_nil.1 (List.getLast?_eq_none_iff.1 hlast))
  next hany =>
    rw [filter_pc_eq_nil.2 hany]
    simp

/-- Settles O14: the instruction ends inside memory, whose size a 32-bit signed word holds. -/
theorem advanceNeverWraps : Obligations.AdvanceNeverWraps := by
  intro s i hwf hfetch
  obtain ⟨-, h0, hend, -⟩ := decodeAt_eq_ok.1 hfetch
  obtain ⟨-, hsize⟩ := wf_size hwf
  refine ⟨?_, hend⟩
  rw [← wrap32_s32_add, s32_wrap32]
  exact Int.bmod_eq_of_le (by omega) (by omega)

end Sys2Proof.Machine
end

section
/-! PROOF. The error the decoder answers, in the order of its checks, and the fault it is at an address of memory
(O9). -/

namespace Sys2Proof

variable {op : Byte} {sh : Shape} {f : Format} {i : Instr} {bs rest : List Byte} {rs : List Reg} {lit : Option Word}

/-- Of the bytes after an opcode of the format `f`, the register fields all name a register (30_encoding.md R62,
R72). -/
def FieldsLegal (f : Format) (bs : List Byte) : Prop :=
  ∀ b ∈ bs.take (Machine.registerFields f), b.toNat < 20

/-- A field below 20 names the register of its number (R62). -/
theorem regOfByte_of_lt {b : Byte} (h : b.toNat < 20) : regOfByte b = some ⟨b.toNat, h⟩ := dif_pos h

/-- Where the operand bytes are enough, the fields name registers or one of them does not. -/
theorem orBadRegister_cases (o : Option Instr) (bs : List Byte) :
    (∃ i rest, orBadRegister o bs = .ok (i, rest)) ∨ orBadRegister o bs = .error .badRegister := by
  cases o with
  | none => exact .inr rfl
  | some i => exact .inl ⟨i, bs, rfl⟩

/-- Operand bytes are too few, which is an error before any field is checked, or enough for an instruction or an illegal
field (30_encoding.md R72). -/
theorem decodeOperands_cases (sh : Shape) (bs : List Byte) :
    (bs.length + 1 < sh.format.length ∧ decodeOperands sh bs = .error .truncated) ∨
    (sh.format.length ≤ bs.length + 1 ∧
      ((∃ i rest, decodeOperands sh bs = .ok (i, rest)) ∨ decodeOperands sh bs = .error .badRegister)) := by
  cases sh <;> simp only [Shape.format, Format.length]
  case n i => exact .inr ⟨by omega, .inl ⟨i, bs, rfl⟩⟩
  case r1 =>
    match bs with
    | [] => exact .inl ⟨by decide, rfl⟩
    | _ :: _ => exact .inr ⟨by simp, orBadRegister_cases _ _⟩
  case r2 =>
    match bs with
    | [] | [_] => exact .inl ⟨by simp, rfl⟩
    | _ :: _ :: _ => exact .inr ⟨by simp, orBadRegister_cases _ _⟩
  case r3 =>
    match bs with
    | [] | [_] | [_, _] => exact .inl ⟨by simp, rfl⟩
    | _ :: _ :: _ :: _ => exact .inr ⟨by simp, orBadRegister_cases _ _⟩
  case l =>
    match bs with
    | [] | [_] | [_, _] | [_, _, _] => exact .inl ⟨by simp, rfl⟩
    | _ :: _ :: _ :: _ :: rest => exact .inr ⟨by simp, .inl ⟨_, rest, rfl⟩⟩
  case rl =>
    match bs with
    | [] | [_] | [_, _] | [_, _, _] | [_, _, _, _] => exact .inl ⟨by simp, rfl⟩
    | _ :: _ :: _ :: _ :: _ :: _ => exact .inr ⟨by simp, orBadRegister_cases _ _⟩

/-- Legal register fields are not reported. -/
theorem decodeOperands_ne_badRegister (h : FieldsLegal sh.format bs) :
    decodeOperands sh bs ≠ .error .badRegister := by
  unfold FieldsLegal at h
  fun_cases decodeOperands sh bs <;>
    simp_all [Shape.format, Machine.registerFields, regOfByte_of_lt, orBadRegister]

/-- The register fields of the operand bytes of an instruction are legal. -/
theorem fieldsLegal_of_makes (h : sh.Makes rs lit i) : FieldsLegal sh.format (operandBytes rs lit ++ rest) := by
  cases h <;> simp [FieldsLegal, Shape.format, Machine.registerFields, operandBytes]

/-! ### The decoder on an opcode byte and the bytes after it -/

/-- The category of a byte is the format of its row (R66). -/
theorem category_eq_some : category op = some f ↔ ∃ sh, shapeOf op = some sh ∧ sh.format = f :=
  Option.map_eq_some_iff

/-- The bytes after an opcode are the operands of its row. -/
theorem decode_cons (h : shapeOf op = some sh) : decode (op :: bs) = decodeOperands sh bs := by
  simp [decode, h]

/-- The first check: the opcode. -/
theorem decode_illegalOpcode (h : category op = none) : decode (op :: bs) = .error .illegalOpcode := by
  have hsh : shapeOf op = none := Option.map_eq_none_iff.1 h
  simp [decode, hsh]

/-- The second check: the length. -/
theorem decode_truncated (h : category op = some f) (hlen : bs.length + 1 < f.length) :
    decode (op :: bs) = .error .truncated := by
  obtain ⟨sh, hsh, rfl⟩ := category_eq_some.1 h
  rw [decode_cons hsh]
  obtain ⟨-, herror⟩ | ⟨hle, -⟩ := decodeOperands_cases sh bs
  · exact herror
  · omega

/-- The third check: the register fields. -/
theorem decode_badRegister (h : category op = some f) (hlen : f.length ≤ bs.length + 1)
    (hfields : ¬ FieldsLegal f bs) : decode (op :: bs) = .error .badRegister := by
  obtain ⟨sh, hsh, rfl⟩ := category_eq_some.1 h
  rw [decode_cons hsh]
  obtain ⟨hlt, -⟩ | ⟨-, ⟨i, rest, hok⟩ | herror⟩ := decodeOperands_cases sh bs
  · omega
  · obtain ⟨rs, lit, hmakes, rfl⟩ := makes_of_decodeOperands hok
    exact absurd (fieldsLegal_of_makes hmakes) hfields
  · exact herror

/-- Past the checks an instruction is answered, of the length its opcode fixes (30_encoding.md R66). -/
theorem exists_decode (h : category op = some f) (hlen : f.length ≤ bs.length + 1) (hfields : FieldsLegal f bs) :
    ∃ i rest, decode (op :: bs) = .ok (i, rest) ∧ i.length = f.length := by
  obtain ⟨sh, hsh, rfl⟩ := category_eq_some.1 h
  obtain ⟨hlt, -⟩ | ⟨-, ⟨i, rest, hok⟩ | herror⟩ := decodeOperands_cases sh bs
  · omega
  · obtain ⟨rs, lit, hmakes, -⟩ := makes_of_decodeOperands hok
    obtain ⟨hop, -, -⟩ := opcode_operands_of_makes hsh hmakes
    exact ⟨i, rest, (decode_cons hsh).trans hok, by simp [Instr.length, hop, h]⟩
  · exact absurd herror (decodeOperands_ne_badRegister hfields)

end Sys2Proof

namespace Sys2Proof.Machine

variable {m : Memory} {a : Int} {f : Format} {s : State} {c : Cause}

/-! ### The decoder at an address -/

/-- How many bytes after the opcode the fetch reads at `a` (40_cycle.md R82). -/
def Memory.operandWindow (m : Memory) (a : Nat) : Nat := min 5 (m.size - (a + 1))

/-- The fetch window of an address in memory starts with its opcode byte. -/
theorem fetchWindow_eq_cons {n : Nat} (h : n < m.size) :
    m.fetchWindow n = m.byte n :: m.bytes (n + 1) (m.operandWindow n) := by
  have hlen : min 6 (m.size - n) = m.operandWindow n + 1 := by unfold Memory.operandWindow; omega
  rw [Memory.fetchWindow, hlen, Memory.bytes]

/-- The bytes of a range are those at its addresses. -/
theorem mem_bytes {b : Byte} {n k : Nat} : b ∈ m.bytes n k ↔ ∃ j < k, m.byte (n + j) = b := by
  simp only [List.mem_iff_getElem, bytes_length, getElem_bytes, exists_prop]

/-- The first bytes of a range. -/
theorem take_bytes {n k l : Nat} (h : l ≤ k) : (m.bytes n k).take l = m.bytes n l := by
  obtain ⟨j, rfl⟩ := Nat.exists_eq_add_of_le h
  rw [bytes_add, List.take_left' (by simp)]

/-- The register fields lie in the instruction. -/
theorem registerFields_lt_length (f : Format) : registerFields f < f.length := by
  cases f <;> decide

/-- The longest format is the fetch window's (R66). -/
theorem format_length_le (f : Format) : f.length ≤ 6 := by
  cases f <;> decide

/-- The register fields of an instruction that lies in memory, by their places after the opcode. -/
theorem fieldsLegal_bytes {n k : Nat} (h : registerFields f ≤ k) :
    FieldsLegal f (m.bytes (n + 1) k) ↔
      ∀ j, 1 ≤ j → j ≤ registerFields f → (m.byte (n + j)).toNat < 20 := by
  simp only [FieldsLegal, take_bytes h, mem_bytes, forall_exists_index, and_imp]
  constructor
  · intro hall j h1 hj
    exact hall _ (j - 1) (by omega) (by rw [Nat.add_assoc, Nat.add_sub_cancel' h1])
  · rintro hall _ j hj rfl
    rw [Nat.add_assoc]
    exact hall _ (by omega) (by omega)

/-- An address outside memory faults FETCH_RANGE (40_cycle.md R81). -/
theorem decodeAt_outside (h : ¬ (0 ≤ a ∧ a < m.size)) : m.decodeAt a = .error .fetchRange := if_neg h

/-- A decoding error at an address in memory is the fault it stands for (60_exceptions.md R201). -/
theorem decodeAt_of_error {e : DecodeError} (h : 0 ≤ a ∧ a < m.size)
    (he : decode (m.byte a.toNat :: m.bytes (a.toNat + 1) (m.operandWindow a.toNat)) = .error e) :
    m.decodeAt a = .error (causeOf e) := by
  rw [Memory.decodeAt, if_pos h, fetchWindow_eq_cons (by omega), he]

/-- A fetch that faults makes the step fault so. -/
theorem stepFaults_of_fetch (ha : s.active = true) (hf : s.fault = none) (h : s.fetch = .error c) : StepFaults c s :=
  ⟨_, step_fetch_error hf ha h, raise_tookFault s c⟩

/-- An instruction fits at an address in memory exactly when the fetch window holds it. -/
theorem fits_iff_window (h : 0 ≤ a ∧ a < m.size) :
    a + f.length ≤ m.size ↔
      f.length ≤ (m.bytes (a.toNat + 1) (m.operandWindow a.toNat)).length + 1 := by
  have hle := format_length_le f
  rw [bytes_length, Memory.operandWindow]
  omega

/-- The fields of an instruction that fits at an address in memory. -/
theorem fieldsLegal_window (h : 0 ≤ a ∧ a < m.size) (hfit : a + f.length ≤ m.size) :
    FieldsLegal f (m.bytes (a.toNat + 1) (m.operandWindow a.toNat)) ↔
      ∀ j, 1 ≤ j → j ≤ registerFields f → (m.byte (a.toNat + j)).toNat < 20 := by
  have hlt := registerFields_lt_length f
  rw [fits_iff_window h, bytes_length] at hfit
  exact fieldsLegal_bytes (by omega)

/-- Settles O9: the checks of the decoder, in their order, on the opcode byte at the pc and the bytes after it. -/
theorem faultPriority : Obligations.FaultPriority := by
  intro s ha hf
  refine ⟨fun hout => stepFaults_of_fetch ha hf (decodeAt_outside hout), fun h0 hlt => ?_⟩
  have hin : 0 ≤ s32 (s.reg Reg.pc) ∧ s32 (s.reg Reg.pc) < s.mem.size := ⟨h0, hlt⟩
  split
  next hcat => exact stepFaults_of_fetch ha hf (decodeAt_of_error hin (decode_illegalOpcode hcat))
  next f hcat =>
    refine ⟨fun hnofit => ?truncated, fun hfit => ⟨?badRegister, fun hfields => ?runs⟩⟩
    case truncated =>
      rw [fits_iff_window hin, Nat.not_le] at hnofit
      exact stepFaults_of_fetch ha hf (decodeAt_of_error hin (decode_truncated hcat hnofit))
    case badRegister =>
      rintro ⟨k, h1, hk, hbad⟩
      refine stepFaults_of_fetch ha hf (decodeAt_of_error hin
        (decode_badRegister hcat ((fits_iff_window hin).1 hfit) fun hlegal => ?_))
      exact absurd ((fieldsLegal_window hin hfit).1 hlegal k h1 hk) (by omega)
    case runs =>
      obtain ⟨i, rest, hdecode, hlen⟩ :=
        exists_decode hcat ((fits_iff_window hin).1 hfit) ((fieldsLegal_window hin hfit).2 hfields)
      have hfetch : s.fetch = .ok i :=
        decodeAt_eq_ok_window.2 ⟨hin, rest, by rw [fetchWindow_eq_cons (by omega), hdecode]⟩
      refine ⟨i, hfetch, hlen, step_fetch_ok ha hf hfetch, fun t hexec => ?_⟩
      obtain hnone | ⟨c, rfl | rfl, rfl⟩ := exec_fault hf hexec
      · exact .inl hnone
      · exact .inr (.inl (raise_tookFault s _))
      · exact .inr (.inr (raise_tookFault s _))

end Sys2Proof.Machine
end

section
/-! PROOF. Which states step, what one moment of a run does to the others, and the one way a run ends (O8). -/

namespace Sys2Proof.Machine

variable {s t u : State} {i : Instr} {c : Console} {n m : Nat} {e e' : Ending}

/-! ### Which states step -/

/-- A state blocked in INPUT (40_cycle.md R89). -/
theorem awaitsInt_iff :
    s.awaitsInt = true ↔ s.fault = none ∧ s.active = true ∧ s.inInts = [] ∧ s.fetch = .ok .input := by
  unfold State.awaitsInt State.enabled
  split
  next h => simp [h, and_assoc, and_left_comm]
  next h => simpa using fun _ _ _ => h

/-- A state blocked in INPUT_CHAR (R89). -/
theorem awaitsChar_iff :
    s.awaitsChar = true ↔ s.fault = none ∧ s.active = true ∧ s.inChars = [] ∧ s.fetch = .ok .inputChar := by
  unfold State.awaitsChar State.enabled
  split
  next h => simp [h, and_assoc, and_left_comm]
  next h => simpa using fun _ _ _ => h

/-- The two reads are two instructions. -/
theorem awaitsInt_eq_false (h : s.awaitsChar = true) : s.awaitsInt = false := by
  obtain ⟨-, -, -, hfetch⟩ := awaitsChar_iff.1 h
  simp [← Bool.not_eq_true, awaitsInt_iff, hfetch]

/-- A state that waits for the console is enabled. -/
theorem enabled_of_awaits (h : s.awaitsInt = true ∨ s.awaitsChar = true) : s.fault = none ∧ s.active = true := by
  obtain h | h := h
  · obtain ⟨hf, ha, -⟩ := awaitsInt_iff.1 h
    exact ⟨hf, ha⟩
  · obtain ⟨hf, ha, -⟩ := awaitsChar_iff.1 h
    exact ⟨hf, ha⟩

/-- A state is blocked exactly when it waits for the console (R223). -/
theorem status_blocked_iff : s.status = .blocked ↔ s.awaitsInt = true ∨ s.awaitsChar = true := by
  constructor
  · intro h
    unfold State.status at h
    split at h
    · cases h
    · split_ifs at h with ha hawaits
      simpa using hawaits
  · intro h
    obtain ⟨hf, ha⟩ := enabled_of_awaits h
    simp only [State.status, hf, ha, if_true]
    exact if_pos (by simpa using h)

/-- A running state steps: its fetch faults, or gives an instruction that is not blocked. -/
theorem step_of_running (h : s.status = .running) : ∃ t, step s = .next t := by
  obtain ⟨hf, ha, hint, hchar⟩ := status_running_iff.1 h
  cases hfetch : s.fetch with
  | error c => exact ⟨_, step_fetch_error hf ha hfetch⟩
  | ok i =>
    rw [step_fetch_ok ha hf hfetch]
    obtain hnext | ⟨⟨rfl, hq⟩ | ⟨rfl, hq⟩, -⟩ := exec_next_or_blocked i s
    · exact hnext
    · exact absurd (awaitsInt_iff.2 ⟨hf, ha, hq, hfetch⟩) (by simp [hint])
    · exact absurd (awaitsChar_iff.2 ⟨hf, ha, hq, hfetch⟩) (by simp [hchar])

/-- A blocked state has no transition (40_cycle.md R89). -/
theorem step_of_blocked (h : s.status = .blocked) : step s = .fault .consoleBlocked := by
  obtain h | h := status_blocked_iff.1 h
  · obtain ⟨hf, ha, hq, hfetch⟩ := awaitsInt_iff.1 h
    simp [step_fetch_ok ha hf hfetch, exec, execInput, hq]
  · obtain ⟨hf, ha, hq, hfetch⟩ := awaitsChar_iff.1 h
    simp [step_fetch_ok ha hf hfetch, exec, execInputChar, hq]

/-- A state steps exactly when it is running. -/
theorem running_iff_steps : s.status = .running ↔ ∃ t, step s = .next t := by
  refine ⟨step_of_running, fun ⟨t, hstep⟩ => ?_⟩
  cases hstatus : s.status with
  | running => rfl
  | halted =>
    obtain ⟨hf, ha⟩ := status_halted_iff.1 hstatus
    simp [step_halted ha hf] at hstep
  | faulted f => simp [step_faulted, status_faulted_iff.1 hstatus] at hstep
  | blocked => simp [step_of_blocked hstatus] at hstep

/-! ### A moment at which nothing happens, and one at which a read is answered -/

/-- `s` is blocked in a read, for which the console has no value at the moment `n`. -/
def Unanswered (c : Console) (n : Nat) (s : State) : Prop :=
  (s.awaitsInt = true ∧ c.int n = none) ∨ (s.awaitsChar = true ∧ c.char n = none)

/-- An unanswered read is blocked. -/
theorem Unanswered.status (h : Unanswered c n s) : s.status = .blocked :=
  status_blocked_iff.2 (h.imp And.left And.left)

/-- A state that neither steps nor is answered stays as it is. -/
theorem tick_eq_self (hstep : s.status ≠ .running) (hsupply : s.supply c n = none) : s.tick c n = s := by
  obtain h | ⟨-, h | ⟨-, h⟩⟩ | ⟨-, h⟩ := tick_cases s c n
  · exact absurd (running_iff_steps.2 ⟨_, h⟩) hstep
  · simp [hsupply] at h
  · exact h
  · exact h

/-- The host answers blocked reads only. -/
theorem supply_none_of_not_blocked (h : s.status ≠ .blocked) : s.supply c n = none := by
  rw [Option.eq_none_iff_forall_ne_some]
  intro t hsupply
  obtain ⟨-, -, hint, -⟩ | ⟨-, -, hchar, -⟩ := supply_some hsupply
  · exact h (status_blocked_iff.2 (.inl hint))
  · exact h (status_blocked_iff.2 (.inr hchar))

/-- An unanswered read is given nothing. -/
theorem Unanswered.supply (h : Unanswered c n s) : s.supply c n = none := by
  obtain ⟨hint, hnone⟩ | ⟨hchar, hnone⟩ := h
  · simp [State.supply, hint, hnone]
  · simp [State.supply, awaitsInt_eq_false hchar, hnone]

/-- The moment after a blocked read is the host's doing alone. -/
theorem tick_of_blocked (h : s.status = .blocked) (c : Console) (n : Nat) : s.tick c n = (s.supply c n).getD s := by
  simp [State.tick, step_of_blocked h]

/-- INPUT with a value in the queue goes on. -/
theorem step_of_suppliedInt (h : s.awaitsInt = true) (v : Word) : ∃ t, step { s with inInts := [v] } = .next t := by
  obtain ⟨hf, ha, -, hfetch⟩ := awaitsInt_iff.1 h
  have hstep : step { s with inInts := [v] } = exec .input { s with inInts := [v] } := step_fetch_ok ha hf hfetch
  exact ⟨_, hstep⟩

/-- INPUT_CHAR with a value in the queue goes on. -/
theorem step_of_suppliedChar (h : s.awaitsChar = true) (v : Half) :
    ∃ t, step { s with inChars := [v] } = .next t := by
  obtain ⟨hf, ha, -, hfetch⟩ := awaitsChar_iff.1 h
  have hstep : step { s with inChars := [v] } = exec .inputChar { s with inChars := [v] } :=
    step_fetch_ok ha hf hfetch
  exact ⟨_, hstep⟩

/-- A blocked read for which the console has a value steps at the next moment (44_console.md R150). -/
theorem unanswered_or_tick_steps (h : s.status = .blocked) (c : Console) (n : Nat) :
    Unanswered c n s ∨ ∃ t, step (s.tick c n) = .next t := by
  rw [tick_of_blocked h]
  obtain hint | hchar := status_blocked_iff.1 h
  · cases hv : c.int n with
    | none => exact .inl (.inl ⟨hint, hv⟩)
    | some v =>
      have hsupply : s.supply c n = some { s with inInts := [v] } := by
        simp [State.supply, State.supplyInt, hint, hv]
      rw [hsupply]
      exact .inr (step_of_suppliedInt hint v)
  · cases hv : c.char n with
    | none => exact .inl (.inr ⟨hchar, hv⟩)
    | some v =>
      have hsupply : s.supply c n = some { s with inChars := [v] } := by
        simp [State.supply, State.supplyChar, awaitsInt_eq_false hchar, hchar, hv]
      rw [hsupply]
      exact .inr (step_of_suppliedChar hchar v)

/-! ### The end of a run, at a moment -/

/-- The run has ended so at the moment `n`, in the state `s`; a run that takes steps for ever does so at no moment. -/
def EndedAt (c : Console) (n : Nat) (s : State) : Ending → Prop
  | .halted => s.status = .halted
  | .faulted f => s.status = .faulted f
  | .blocked => ∀ m, n ≤ m → Unanswered c m s
  | .diverging => False

/-- The status of the states a run with this ending stays in, or returns to for ever. -/
def Ending.status : Ending → Status
  | .halted => .halted
  | .faulted f => .faulted f
  | .blocked => .blocked
  | .diverging => .running

/-- Different endings stay in states of different status. -/
theorem Ending.status_injective (h : e.status = e'.status) : e = e' := by
  cases e <;> cases e' <;> simp_all [Ending.status]

/-- The console never has a value again for the read `s` is blocked in, whichever read it is. -/
theorem endedAt_blocked_iff : EndedAt c n s .blocked ↔
    (s.awaitsInt = true ∧ ∀ m, n ≤ m → c.int m = none) ∨ (s.awaitsChar = true ∧ ∀ m, n ≤ m → c.char m = none) := by
  constructor
  · intro h
    obtain ⟨hint, -⟩ | ⟨hchar, -⟩ := h n le_rfl
    · refine .inl ⟨hint, fun m hm => ?_⟩
      obtain ⟨-, hnone⟩ | ⟨hchar, -⟩ := h m hm
      · exact hnone
      · simp [awaitsInt_eq_false hchar] at hint
    · refine .inr ⟨hchar, fun m hm => ?_⟩
      obtain ⟨hint, -⟩ | ⟨-, hnone⟩ := h m hm
      · simp [awaitsInt_eq_false hchar] at hint
      · exact hnone
  · rintro (⟨hint, hnone⟩ | ⟨hchar, hnone⟩) m hm
    · exact .inl ⟨hint, hnone m hm⟩
    · exact .inr ⟨hchar, hnone m hm⟩

/-- A run that does not go on for ever ends at a moment. -/
theorem endsIn_iff_endedAt (he : e ≠ .diverging) : EndsIn c s e ↔ ∃ n, EndedAt c n (s.run c n) e := by
  cases e with
  | halted | faulted => exact Iff.rfl
  | blocked => exact exists_congr fun n => endedAt_blocked_iff.symm
  | diverging => exact absurd rfl he

/-- A run that has ended is in a state of its ending's status. -/
theorem EndedAt.status (h : EndedAt c n s e) : s.status = e.status := by
  cases e with
  | halted | faulted => exact h
  | blocked => exact (h n le_rfl).status
  | diverging => exact h.elim

/-- A run that has ended takes no step. -/
theorem EndedAt.not_running (h : EndedAt c n s e) : s.status ≠ .running := by
  cases e with
  | halted | faulted | blocked => simp [h.status, Ending.status]
  | diverging => exact h.elim

/-- A run that has ended has ended at every later moment too. -/
theorem EndedAt.mono (h : EndedAt c n s e) (hnm : n ≤ m) : EndedAt c m s e := by
  cases e with
  | halted | faulted | diverging => exact h
  | blocked => exact fun k hk => h k (hnm.trans hk)

/-- A run that has ended is given nothing by the host. -/
theorem EndedAt.supply (h : EndedAt c n s e) : s.supply c n = none := by
  cases e with
  | halted | faulted => exact supply_none_of_not_blocked (by simp [h.status, Ending.status])
  | blocked => exact (h n le_rfl).supply
  | diverging => exact h.elim

/-- A run that has ended stays where it is. -/
theorem EndedAt.run_eq (h : EndedAt c n (s.run c n) e) (hnm : n ≤ m) : s.run c m = s.run c n := by
  induction m, hnm using Nat.le_induction with
  | base => rfl
  | succ m hnm ih => rw [run_succ, ih, tick_eq_self h.not_running (h.mono hnm).supply]

/-! ### Every run ends in exactly one way -/

/-- A run that is blocked at a moment and takes no step from then on is never answered. -/
theorem endedAt_blocked_of_no_step (hblocked : (s.run c n).status = .blocked)
    (h : ∀ m, n ≤ m → ∀ t, step (s.run c m) ≠ .next t) : EndedAt c n (s.run c n) .blocked := by
  have hunanswered : ∀ m, n ≤ m → s.run c m = s.run c n → Unanswered c m (s.run c n) := by
    intro m hm hrun
    refine (unanswered_or_tick_steps hblocked c m).resolve_right fun ⟨t, ht⟩ => h (m + 1) (by omega) t ?_
    rw [run_succ, hrun, ht]
  have hstays : ∀ m, n ≤ m → s.run c m = s.run c n := by
    intro m hm
    induction m, hm using Nat.le_induction with
    | base => rfl
    | succ m hm ih => rw [run_succ, ih, tick_eq_self (by simp [hblocked]) (hunanswered m hm ih).supply]
  exact fun m hm => hunanswered m hm (hstays m hm)

/-- A run that takes no step from a moment on has ended then. -/
theorem exists_endedAt (h : ∀ m, n ≤ m → ∀ t, step (s.run c m) ≠ .next t) : ∃ e, EndedAt c n (s.run c n) e := by
  cases hstatus : (s.run c n).status with
  | running =>
    obtain ⟨t, ht⟩ := running_iff_steps.1 hstatus
    exact absurd ht (h n le_rfl t)
  | halted => exact ⟨.halted, hstatus⟩
  | faulted f => exact ⟨.faulted f, hstatus⟩
  | blocked => exact ⟨.blocked, endedAt_blocked_of_no_step hstatus h⟩

/-- A run takes steps for ever exactly when it ends at no moment. -/
theorem endsIn_diverging_iff : EndsIn c s .diverging ↔ ∀ n e, ¬ EndedAt c n (s.run c n) e := by
  constructor
  · intro h n e he
    obtain ⟨m, hnm, hsteps⟩ := h n
    rw [he.run_eq hnm] at hsteps
    exact he.not_running (running_iff_steps.2 hsteps)
  · intro h n
    by_contra hno
    push Not at hno
    obtain ⟨e, he⟩ := exists_endedAt hno
    exact h n e he

/-- Every run ends: it goes on for ever, or has ended at a moment. -/
theorem exists_endsIn (c : Console) (s : State) : ∃ e, EndsIn c s e := by
  by_cases hdiverging : EndsIn c s .diverging
  · exact ⟨.diverging, hdiverging⟩
  · rw [endsIn_diverging_iff] at hdiverging
    push Not at hdiverging
    obtain ⟨n, e, he⟩ := hdiverging
    exact ⟨e, (endsIn_iff_endedAt fun h => by subst h; exact he).2 ⟨n, he⟩⟩

/-- Two endings of one run: it has come to both at the later of their moments, and a state has one status. -/
theorem endedAt_unique (h : EndedAt c n (s.run c n) e) (h' : EndedAt c m (s.run c m) e') : e = e' := by
  have hlater : s.run c n = s.run c m :=
    (h.run_eq (Nat.le_max_left n m)).symm.trans (h'.run_eq (Nat.le_max_right n m))
  exact Ending.status_injective (by rw [← h.status, ← h'.status, hlater])

/-- A run ends in one way: what goes on for ever ends at no moment, and what ends at one ends in one way. -/
theorem endsIn_unique (h : EndsIn c s e) (h' : EndsIn c s e') : e = e' := by
  by_cases he : e = .diverging <;> by_cases he' : e' = .diverging
  · rw [he, he']
  · obtain ⟨m, hm⟩ := (endsIn_iff_endedAt he').1 h'
    exact absurd hm (endsIn_diverging_iff.1 (he ▸ h) m e')
  · obtain ⟨n, hn⟩ := (endsIn_iff_endedAt he).1 h
    exact absurd hn (endsIn_diverging_iff.1 (he' ▸ h') n e)
  · obtain ⟨n, hn⟩ := (endsIn_iff_endedAt he).1 h
    obtain ⟨m, hm⟩ := (endsIn_iff_endedAt he').1 h'
    exact endedAt_unique hn hm

/-! ### HALT alone halts -/

/-- A moment at which a run comes to a halted state is a step of a fetched HALT: a fault is recorded, every other
instruction keeps the engine active, and the host answers active engines only. -/
theorem fetch_halt_of_tick_halted (h : s.status ≠ .halted) (h' : (s.tick c n).status = .halted) :
    s.fetch = .ok .halt ∧ step s = .next (s.tick c n) := by
  have hstep : step s = .next (s.tick c n) := by
    cases hstatus : s.status with
    | running =>
      obtain ⟨t, ht⟩ := running_iff_steps.1 hstatus
      simp [State.tick, ht]
    | halted => exact absurd hstatus h
    | faulted f =>
      rw [tick_eq_self (by simp [hstatus]) (supply_none_of_not_blocked (by simp [hstatus]))] at h'
      exact absurd h' h
    | blocked =>
      obtain hunanswered | ⟨t, ht⟩ := unanswered_or_tick_steps hstatus c n
      · rw [tick_eq_self (by simp [hstatus]) hunanswered.supply] at h'
        exact absurd h' h
      · simp [running_iff_steps.2 ⟨t, ht⟩] at h'
  obtain ⟨hf', ha'⟩ := status_halted_iff.1 h'
  obtain ⟨hf, ha, ⟨k, -, hraise⟩ | ⟨i, hfetch, hexec⟩⟩ := step_next hstep
  · simp [hraise] at hf'
  · obtain ⟨-, hcleared⟩ := onlyHaltAndFaultsStop i s _ hf hexec
    obtain rfl | hfault := (hcleared ha).1 ha'
    · exact ⟨hfetch, hstep⟩
    · exact absurd hf' hfault

/-- Settles O8: a state steps exactly when it is running, a run has ended at a moment or goes on for ever, and the first
halted state of a run is a HALT's. -/
theorem statusDecidesStep : Obligations.StatusDecidesStep := by
  refine ⟨fun s => ?step, fun c s => ?ending, fun c s hs => ?halted⟩
  case step =>
    split
    next h => exact running_iff_steps.1 h
    next h =>
      obtain ⟨hf, ha⟩ := status_halted_iff.1 h
      exact step_halted ha hf
    next f h => exact step_faulted (by simp [status_faulted_iff.1 h])
    next h => exact step_of_blocked h
  case ending =>
    obtain ⟨e, he⟩ := exists_endsIn c s
    exact ⟨e, he, fun e' he' => endsIn_unique he' he⟩
  case halted =>
    intro hhalted
    obtain ⟨n, hn, hn'⟩ :=
      Nat.exists_not_and_succ_of_not_zero_of_exists (p := fun n => (s.run c n).status = .halted) hs hhalted
    obtain ⟨hfetch, hstep⟩ := fetch_halt_of_tick_halted hn hn'
    exact ⟨n, hfetch, hstep, hn'⟩

end Sys2Proof.Machine
end

section
/-! PROOF. Which instructions raise the two execute faults (O11). -/

namespace Sys2Proof.Machine

variable {s t : State} {k : Cause} {f : FaultRecord}

/-- The fault an instruction with one check leaves is the one the check raises: its own state records none. -/
theorem cause_of_orRaise {o : Option State} (hs : s.fault = none) (h : orRaise s k o = .next t) (hf : t.fault = some f)
    (ho : ∀ u, o = some u → SameControl s u) : f.cause = k := by
  obtain h | ⟨-, rfl⟩ := orRaise_next.1 h
  · obtain ⟨-, hfault⟩ := ho t h
    simp [hfault, hs] at hf
  · cases hf
    rfl

/-- The same, where the check is an access and the instruction goes on with the value the access gives. -/
theorem cause_of_orRaise_map {α : Type} {o : Option α} {g : α → State} (hs : s.fault = none)
    (h : orRaise s k (o.map g) = .next t) (hf : t.fault = some f) (hg : ∀ x, SameControl s (g x)) : f.cause = k := by
  refine cause_of_orRaise hs h hf fun u hu => ?_
  obtain ⟨x, -, rfl⟩ := Option.map_eq_some_iff.1 hu
  exact hg x

/-- Settles O11: DIV checks its divisor and eight instructions check a range; the others end with the record as it
was. -/
theorem executeFaultsByOpcode : Obligations.ExecuteFaultsByOpcode := by
  refine ⟨rfl, fun i s t f hs h hf => ?_⟩
  cases i
  case div =>
    refine .inl ⟨cause_of_orRaise hs h hf fun u hu => ?_, rfl⟩
    split at hu <;> cases hu
    exact .retire ⟨rfl, rfl⟩ _ _
  case pushStk | popStk | load | loadByte | store | storeByte | outputStr | coreDump =>
    exact .inr ⟨cause_of_orRaise_map hs h hf fun _ => .retire ⟨rfl, rfl⟩ _ _, by simp [Instr.opcode]⟩
  case nop | add | subt | mult | neg | and | or | lshift | rshift | gt | lt | eq | copy | loadLit | set
      | branch | jump | jumpLit | jumpLabel | branchLit | output | outputChar | halt =>
    cases h
    simp [hs] at hf
  case input | inputChar =>
    simp only [exec, execInput, execInputChar] at h
    split at h <;> cases h
    simp [hs] at hf

end Sys2Proof.Machine
end

section
/-! PROOF. What arithmetic, logic, comparisons and moves compute: words as integers and bit by bit, the two formats of
instruction that write one result, and each instruction's result (O24 to O36). -/

namespace Sys2Proof.Machine

/-! ### The results, as words -/

/-- A word reads as 0 exactly when it is 0. -/
theorem s32_eq_zero {x : Word} : s32 x = 0 ↔ x = 0 := BitVec.toInt_inj (y := 0#32)

/-- The exact product wrapped is the product of words (41_alu.md R93). -/
theorem wrap32_s32_mul (x y : Word) : wrap32 (s32 x * s32 y) = x * y :=
  BitVec.eq_of_toInt_eq (by rw [BitVec.toInt_mul]; exact s32_wrap32 _)

/-- The quotient truncated toward zero, by signs and absolute values (R94). -/
theorem tdiv_eq_sign_mul_natAbs_div (a b : Int) : a.tdiv b = a.sign * b.sign * ((a.natAbs / b.natAbs : Nat) : Int) := by
  rw [← Int.sign_mul_natAbs (a.tdiv b), Int.sign_tdiv, Int.natAbs_tdiv]
  split
  next hlt => simp [Nat.div_eq_of_lt hlt]
  next => rfl

/-- The complement as a signed integer (R95). -/
theorem s32_not (x : Word) : s32 (~~~x) = -s32 x - 1 := by
  simp only [s32, BitVec.toInt_eq_toNat_cond, BitVec.toNat_not]
  have hx : x.toNat < 2 ^ 32 := x.isLt
  split <;> split <;> omega

/-- LSHIFT's word is the shift left by one (R98). -/
theorem append_zero_eq_shiftLeft (x : Word) : x.extractLsb' 0 31 ++ 0#1 = x <<< 1 :=
  (BitVec.shiftLeft_eq_concat_of_lt (x := x) (n := 1) (by decide)).symm

/-- A shift left by one doubles the signed integer, wrapped (R98). -/
theorem s32_shiftLeft_one (x : Word) : s32 (x <<< 1) = (s32 x * 2).bmod (2 ^ 32) := by
  rw [BitVec.shiftLeft_eq_mul_twoPow]
  exact BitVec.toInt_mul x _

/-- A shift left by one moves each bit up (R98). -/
theorem getLsbD_shiftLeft_one (x : Word) {k : Nat} (hk : k < 31) : (x <<< 1).getLsbD (k + 1) = x.getLsbD k := by
  rw [BitVec.getLsbD_shiftLeft]
  simp [show k + 1 < 32 by omega]

/-- An arithmetic shift right by one copies the sign bit (R99). -/
theorem getLsbD_sshiftRight_one_sign (x : Word) : (x.sshiftRight 1).getLsbD 31 = x.getLsbD 31 := by
  rw [BitVec.getLsbD_sshiftRight, if_neg (by decide)]
  exact BitVec.msb_eq_getLsbD_last x

/-- An arithmetic shift right by one moves each bit down (R99). -/
theorem getLsbD_sshiftRight_one (x : Word) {k : Nat} (hk : k < 31) :
    (x.sshiftRight 1).getLsbD k = x.getLsbD (k + 1) := by
  rw [BitVec.getLsbD_sshiftRight, if_pos (by omega), Nat.add_comm 1 k]
  simp [show k < 32 by omega]

/-- RSHIFT's word is the arithmetic shift right by one (R99). -/
theorem sign_append_eq_sshiftRight (x : Word) : x.extractLsb' 31 1 ++ x.extractLsb' 1 31 = x.sshiftRight 1 := by
  apply BitVec.eq_of_getLsbD_eq
  intro k hk
  rw [BitVec.getLsbD_append]
  by_cases hsign : k = 31
  · subst hsign
    rw [getLsbD_sshiftRight_one_sign]
    simp
  · have hlow : k < 31 := by omega
    rw [getLsbD_sshiftRight_one x hlow]
    simp [hlow, Nat.add_comm]

/-- An arithmetic shift right by one halves the signed integer, rounding down (R99). -/
theorem s32_sshiftRight_one (x : Word) : s32 (x.sshiftRight 1) = (s32 x).fdiv 2 := by
  rw [Int.fdiv_eq_ediv_of_nonneg _ (by decide)]
  exact BitVec.toInt_sshiftRight.trans (Int.shiftRight_eq_div_pow _ 1)

/-- The 0 or 1 of a comparison (R100 to R102). -/
theorem truth_decide (p : Prop) [Decidable p] : truth (decide p) = if p then 1 else 0 := by
  simp [truth]

/-! ### The instructions that write one result -/

/-- The end of an instruction changes nothing but registers. -/
theorem retire_onlyRegisters (s : State) (len : Nat) (ws : List (Reg × Word)) : OnlyRegisters s (s.retire len ws) :=
  ⟨⟨by simp, by simp⟩, ⟨by simp, by simp⟩, by simp [SameConsole]⟩

variable {op : Byte}

/-- The row of the opcode map that makes `mk`, and the word `mk` writes, say what the R3 instruction computes. -/
theorem computesR3_of_writeR3 {mk : Reg → Reg → Reg → Instr} {result : Word → Word → Word → Prop}
    (f : Word → Word → Word) (hrow : shapeOf op = some (.r3 mk))
    (hexec : ∀ s A B C, exec (mk A B C) s = writeR3 s C (f (s.reg A) (s.reg B))) (hf : ∀ x y, result x y (f x y)) :
    ComputesR3 mk op result :=
  fun s A B C => ⟨encodesAsTable_of_shapeOf hrow A B C, _, _, hexec s A B C, hf _ _, retire_single_writes s 4 C _,
    retire_onlyRegisters s 4 _⟩

/-- The same for an R2 instruction. -/
theorem computesR2_of_writeR2 {mk : Reg → Reg → Instr} {result : Word → Word → Prop} (f : Word → Word)
    (hrow : shapeOf op = some (.r2 mk)) (hexec : ∀ s A B, exec (mk A B) s = writeR2 s B (f (s.reg A)))
    (hf : ∀ x, result x (f x)) : ComputesR2 mk op result :=
  fun s A B => ⟨encodesAsTable_of_shapeOf hrow A B, _, _, hexec s A B, hf _, retire_single_writes s 3 B _,
    retire_onlyRegisters s 3 _⟩

/-! ### Arithmetic -/

/-- Settles O24: the word written is the sum, wrapped. -/
theorem addWritesWrappedSum : Obligations.AddWritesWrappedSum :=
  computesR3_of_writeR3 (fun x y => wrap32 (s32 x + s32 y)) rfl (fun _ _ _ _ => rfl) fun _ _ => s32_wrap32 _

/-- Settles O25: the word written is the difference, wrapped. -/
theorem subtWritesWrappedDifference : Obligations.SubtWritesWrappedDifference :=
  computesR3_of_writeR3 (fun x y => wrap32 (s32 x - s32 y)) rfl (fun _ _ _ _ => rfl) fun _ _ => s32_wrap32 _

/-- Settles O26: the exact signed product, wrapped, is the product of the words, which are unsigned. -/
theorem multWritesLowProduct : Obligations.MultWritesLowProduct :=
  computesR3_of_writeR3 (fun x y => wrap32 (s32 x * s32 y)) rfl (fun _ _ _ _ => rfl) fun x y =>
    ⟨s32_wrap32 _, by rw [wrap32_s32_mul, BitVec.toNat_mul]⟩

/-- DIV with a zero divisor raises DIV_ZERO (R94). -/
theorem exec_div_zero {s : State} {B : Reg} (A C : Reg) (hB : s.reg B = 0) :
    exec (.div A B C) s = .next (s.raise .divZero) := by
  have hint : s.int B = 0 := s32_eq_zero.2 hB
  exact congrArg (orRaise s .divZero) (if_pos hint)

/-- DIV with any other divisor writes the truncated quotient, wrapped (R94). -/
theorem exec_div_nonzero {s : State} {B : Reg} (A C : Reg) (hB : s.reg B ≠ 0) :
    exec (.div A B C) s = writeR3 s C (wrap32 ((s32 (s.reg A)).tdiv (s32 (s.reg B)))) := by
  have hint : s.int B ≠ 0 := s32_eq_zero.not.2 hB
  exact congrArg (orRaise s .divZero) (if_neg hint)

/-- Settles O27: the divisor decides between the fault and the quotient. -/
theorem divWritesTruncatedQuotient : Obligations.DivWritesTruncatedQuotient := by
  intro s A B C
  refine ⟨rfl, ?_⟩
  split
  next hB => exact ⟨_, exec_div_zero A C hB, raise_tookFault s .divZero⟩
  next hB =>
    refine ⟨_, _, exec_div_nonzero A C hB, ?_, retire_single_writes s 4 C _, retire_onlyRegisters s 4 _⟩
    rw [s32_wrap32, tdiv_eq_sign_mul_natAbs_div]

/-! ### Logic and shifts -/

/-- Settles O28: the complement, bit by bit and as an integer. -/
theorem negWritesComplement : Obligations.NegWritesComplement :=
  computesR2_of_writeR2 (fun x => ~~~x) rfl (fun _ _ _ => rfl) fun x =>
    ⟨fun k hk => by simp [hk], s32_not x⟩

/-- Settles O29: a bit of the result is made of the two bits in its place. -/
theorem andOrAreBitwise : Obligations.AndOrAreBitwise :=
  ⟨computesR3_of_writeR3 (fun x y => x &&& y) rfl (fun _ _ _ _ => rfl) fun _ _ _ _ => BitVec.getLsbD_and,
    computesR3_of_writeR3 (fun x y => x ||| y) rfl (fun _ _ _ _ => rfl) fun _ _ _ _ => BitVec.getLsbD_or⟩

/-- Settles O30: the word written is the shift left by one, which doubles and moves each bit up. -/
theorem lshiftDoubles : Obligations.LshiftDoubles :=
  computesR2_of_writeR2 (fun x => x <<< 1) rfl
    (fun s A B => congrArg (writeR2 s B) (append_zero_eq_shiftLeft (s.reg A))) fun x =>
    ⟨s32_shiftLeft_one x, by simp, fun _ hk => getLsbD_shiftLeft_one x hk⟩

/-- Settles O31: the word written is the arithmetic shift right by one, which halves and moves each bit down. -/
theorem rshiftHalvesTowardMinusInfinity : Obligations.RshiftHalvesTowardMinusInfinity :=
  computesR2_of_writeR2 (fun x => x.sshiftRight 1) rfl
    (fun s A B => congrArg (writeR2 s B) (sign_append_eq_sshiftRight (s.reg A))) fun x =>
    ⟨s32_sshiftRight_one x, getLsbD_sshiftRight_one_sign x, fun _ hk => getLsbD_sshiftRight_one x hk⟩

/-! ### Comparisons -/

/-- Settles O32: the comparison is made in ℤ, and its truth written. -/
theorem gtLtCompareSigned : Obligations.GtLtCompareSigned :=
  ⟨computesR3_of_writeR3 (fun x y => truth (s32 y < s32 x)) rfl (fun _ _ _ _ => rfl) fun _ _ => truth_decide _,
    computesR3_of_writeR3 (fun x y => truth (s32 x < s32 y)) rfl (fun _ _ _ _ => rfl) fun _ _ => truth_decide _⟩

/-- Settles O33: the truth of the words' equality is written. -/
theorem eqWritesEquality : Obligations.EqWritesEquality :=
  computesR3_of_writeR3 (fun x y => truth (x = y)) rfl (fun _ _ _ _ => rfl) fun _ _ => truth_decide _

/-! ### Moves -/

/-- Settles O34: the word read is the word written. -/
theorem copyWritesSource : Obligations.CopyWritesSource :=
  computesR2_of_writeR2 (fun x => x) rfl (fun _ _ _ => rfl) fun _ => rfl

/-- Settles O35: the one write is to `rs`. -/
theorem loadLitWritesResultRegister : Obligations.LoadLitWritesResultRegister :=
  fun s lit => ⟨rfl, _, rfl, retire_single_writes s 5 Reg.rs lit, retire_onlyRegisters s 5 _⟩

/-- Settles O36: the one write is to the register the instruction names. -/
theorem setWritesLiteral : Obligations.SetWritesLiteral :=
  fun s A lit => ⟨rfl, _, rfl, retire_single_writes s 6 A lit, retire_onlyRegisters s 6 _⟩

end Sys2Proof.Machine
end

section
/-! PROOF. Where NOP, the jumps and the branches leave the pc, and that nothing else changes (O37 to O41). -/

namespace Sys2Proof.Machine

/-! ### The end of a control transfer -/

/-- A transfer's one write is to the pc, so no advance follows it (40_cycle.md R84). -/
theorem retire_pc_jumpsTo (s : State) (len : Nat) (target : Word) :
    JumpsTo target s (s.retire len [(Reg.pc, target)]) := by
  obtain ⟨hpc, -, hregs⟩ := retire_single_writes s len Reg.pc target
  exact ⟨hpc, fun r hr => hregs r hr hr⟩

/-- A branch is taken exactly when its register is not 0 (42_control.md R121, R124). -/
theorem taken_iff {s : State} {A : Reg} : s.taken A = true ↔ s.reg A ≠ 0 := bne_iff_ne

/-- A branch on `A` goes on, touches registers only, and `A` decides between the target and the next instruction. -/
theorem branchTo_on_register (s : State) (A : Reg) (len : Nat) (target : Word) :
    ∃ t, branchTo s len (s.taken A) target = .next t ∧ OnlyRegisters s t ∧
      if s.reg A = 0 then WritesNoReg len s t else JumpsTo target s t := by
  refine ⟨_, rfl, retire_onlyRegisters s len _, ?_⟩
  split
  next hzero =>
    have hnot : ¬ s.taken A = true := fun h => taken_iff.1 h hzero
    rw [if_neg hnot]
    exact retire_nil_writes s len
  next hnonzero =>
    rw [if_pos (taken_iff.2 hnonzero)]
    exact retire_pc_jumpsTo s len target

/-! ### The instructions -/

/-- Settles O37: NOP ends with no write. -/
theorem nopOnlyAdvances : Obligations.NopOnlyAdvances :=
  fun s => ⟨rfl, _, rfl, retire_nil_writes s 1, retire_onlyRegisters s 1 _⟩

/-- Settles O38: a branch on A, 3 bytes long, whose target is the other register. -/
theorem branchJumpsWhenNonzero : Obligations.BranchJumpsWhenNonzero :=
  fun s A B => ⟨rfl, branchTo_on_register s A 3 (s.reg B)⟩

/-- Settles O39: the one write is of the register to the pc. -/
theorem jumpGoesToRegister : Obligations.JumpGoesToRegister :=
  fun s A => ⟨rfl, _, rfl, retire_pc_jumpsTo s 2 (s.reg A), retire_onlyRegisters s 2 _⟩

/-- Settles O40: the two spellings share their bytes and their execute part, whose one write is of the literal to the
pc. -/
theorem jumpLitGoesToLiteral : Obligations.JumpLitGoesToLiteral :=
  fun s lit => ⟨rfl, rfl, rfl, _, rfl, retire_pc_jumpsTo s 5 lit, retire_onlyRegisters s 5 _⟩

/-- Settles O41: a branch on A, 6 bytes long, whose target is the literal. -/
theorem branchLitJumpsWhenNonzero : Obligations.BranchLitJumpsWhenNonzero :=
  fun s A lit => ⟨rfl, branchTo_on_register s A 6 lit⟩

end Sys2Proof.Machine
end

section
/-! PROOF. The stack, the loads and the stores: what each does where its access is in range, the fault where it is not,
and that a pop undoes a push (O43 to O49). -/

namespace Sys2Proof.Machine

variable {s t : State} {i : Instr} {c : Cause} {m : Memory} {a : Int}

/-! ### An instruction with one access -/

/-- Where its access succeeds, the instruction goes on with what the access gives. -/
theorem exec_of_access {α : Type} {o : Option α} {f : α → State} {x : α} (hexec : exec i s = orRaise s c (o.map f))
    (ho : o = some x) : exec i s = .next (f x) := by
  rw [hexec, ho]
  rfl

/-- Where its access is out of range, the instruction takes the fault (20_memory.md R48). -/
theorem execFaults_of_access {α : Type} {o : Option α} {f : α → State} (hexec : exec i s = orRaise s c (o.map f))
    (ho : o = none) : ExecFaults i c s := by
  refine ⟨s.raise c, ?_, raise_tookFault s c⟩
  rw [hexec, ho]
  rfl

/-! ### Words, and the bytes they are read from and stored as -/

/-- A load in range gives the word whose bytes stand there, most significant first (20_memory.md R47). -/
theorem exists_loadWord (h : 0 ≤ a ∧ a + 4 ≤ m.size) :
    ∃ v, m.loadWord a = some v ∧ m.bytes a.toNat 4 = bytesOfWord v :=
  ⟨_, loadWord_in h, (bytesOfWord_wordOfBytes _ _ _ _).symm⟩

/-- A word is known by its bytes. -/
theorem bytesOfWord_injective : Function.Injective bytesOfWord := by
  intro v w h
  simp only [bytesOfWord, List.cons.injEq, and_true] at h
  obtain ⟨h3, h2, h1, h0⟩ := h
  rw [← wordOfBytes_bytesOfWord v, h3, h2, h1, h0, wordOfBytes_bytesOfWord]

/-- A non-negative integer below 2^31 is not changed by wrapping. -/
theorem s32_wrap32_of_nonneg {n : Int} (h0 : 0 ≤ n) (h1 : n < 2 ^ 31) : s32 (wrap32 n) = n := by
  rw [s32_wrap32]
  exact Int.bmod_eq_of_le (by omega) (by omega)

/-! ### The end of a store, and of a pop -/

/-- An instruction that stored bytes inside memory has them there when it ends, and no other byte has changed. -/
theorem retire_storesBytes (s : State) {n : Nat} {bs : List Byte} (hfit : n + bs.length ≤ s.mem.size) (len : Nat)
    (ws : List (Reg × Word)) :
    StoresBytes n bs s (State.retire { s with mem := s.mem.setBytes n bs } len ws) := by
  rw [StoresBytes, retire_mem]
  exact ⟨setBytes_size n bs, fun hwf => bytes_setBytes hwf hfit, fun _ hx => byte_setBytes_outside hx⟩

/-- A store, and the end of its instruction, touch neither the flag and the record nor the console. -/
theorem retire_with_mem_frame (s : State) (m : Memory) (len : Nat) (ws : List (Reg × Word)) :
    SameControl s (State.retire { s with mem := m } len ws) ∧
      SameConsole s (State.retire { s with mem := m } len ws) :=
  (retire_onlyRegisters { s with mem := m } len ws).2

/-- A first write to a register other than the pc can be made before the instruction ends (40_cycle.md R83). -/
theorem retire_cons {d : Reg} (hd : d ≠ Reg.pc) (s : State) (len : Nat) (v : Word) (ws : List (Reg × Word)) :
    s.retire len ((d, v) :: ws) = (s.setReg d v).retire len ws := by
  simp [State.retire, hd, hd.symm]

/-! ### Loads -/

/-- Settles O46: the word at the address is written to the destination. -/
theorem loadReadsBigEndianWord : Obligations.LoadReadsBigEndianWord := by
  intro s A B
  refine ⟨rfl, ?_⟩
  split
  next hin =>
    obtain ⟨v, hload, hbytes⟩ := exists_loadWord hin
    exact ⟨_, v, exec_of_access rfl hload, hbytes, retire_single_writes s 3 B v, retire_onlyRegisters s 3 _⟩
  next hout => exact execFaults_of_access rfl (loadWord_out hout)

/-- Settles O47: the byte at the address is written to the destination, and widening it keeps its value. -/
theorem loadByteZeroExtends : Obligations.LoadByteZeroExtends := by
  intro s A B
  refine ⟨rfl, ?_⟩
  split
  next hin =>
    refine ⟨_, _, exec_of_access rfl (loadByte_in hin), ?_, retire_single_writes s 3 B _,
      retire_onlyRegisters s 3 _⟩
    exact BitVec.toNat_setWidth_of_le (by decide)
  next hout => exact execFaults_of_access rfl (loadByte_out hout)

/-! ### Stores -/

/-- Settles O48: the word's bytes are stored at the address, and no register is written. -/
theorem storeWritesBigEndianWord : Obligations.StoreWritesBigEndianWord := by
  intro s A B
  refine ⟨rfl, rfl, ?_⟩
  split
  next hin =>
    have hfit : (s.address A).toNat + (bytesOfWord (s.reg B)).length ≤ s.mem.size := by
      rw [bytesOfWord_length]
      omega
    exact ⟨_, exec_of_access rfl (storeWord_in _ hin), retire_storesBytes s hfit 3 _, retire_nil_writes _ 3,
      retire_with_mem_frame s _ 3 _⟩
  next hout => exact execFaults_of_access rfl (storeWord_out _ hout)

/-- Settles O49: the one byte is stored at the address, and no register is written. -/
theorem storeByteWritesLowByte : Obligations.StoreByteWritesLowByte := by
  intro s A B
  refine ⟨rfl, rfl, ?_⟩
  split
  next hin =>
    have hfit : (s.address A).toNat + [(s.reg B).extractLsb' 0 8].length ≤ s.mem.size := by
      rw [List.length_singleton]
      omega
    exact ⟨_, exec_of_access rfl (storeByte_in _ hin), retire_storesBytes s hfit 3 _, retire_nil_writes _ 3,
      retire_with_mem_frame s _ 3 _⟩
  next hout => exact execFaults_of_access rfl (storeByte_out _ hout)

/-! ### The stack -/

/-- Settles O43: a store at `sp`, and the one register written is `sp`. -/
theorem pushStoresThenAdvances : Obligations.PushStoresThenAdvances := by
  intro s A
  refine ⟨rfl, rfl, ?_⟩
  split
  next hin =>
    have hfit : s.pushAddress.toNat + (bytesOfWord (s.reg A)).length ≤ s.mem.size := by
      rw [bytesOfWord_length]
      omega
    have hsp : wrap32 (s.pushAddress + 4) = s.reg Reg.sp + 4 := wrap32_s32_add (s.reg Reg.sp) 4
    refine ⟨_, exec_of_access rfl (storeWord_in _ hin), retire_storesBytes s hfit 2 _, ?_,
      retire_with_mem_frame s _ 2 _⟩
    rw [hsp]
    exact retire_single_writes _ 2 Reg.sp _
  next hout => exact execFaults_of_access rfl (storeWord_out _ hout)

/-- Settles O44: POP_STK is a load of A that starts from a retreated `sp`; where A is `sp`, the load stays. -/
theorem popRetreatsThenLoads : Obligations.PopRetreatsThenLoads := by
  intro s A
  refine ⟨rfl, rfl, ?_⟩
  split
  next hin =>
    obtain ⟨v, hload, hbytes⟩ := exists_loadWord hin
    have hsp : s32 (wrap32 s.popAddress) = s32 (s.reg Reg.sp) - 4 := by
      have hlt : s32 (s.reg Reg.sp) < 2 ^ 31 := BitVec.toInt_lt
      have hpop : s.popAddress = s32 (s.reg Reg.sp) - 4 := rfl
      exact s32_wrap32_of_nonneg hin.1 (by omega)
    refine ⟨_, v, exec_of_access rfl hload, hbytes, ?_⟩
    rw [retire_cons sp_ne_pc]
    obtain ⟨hA, hpc, hothers⟩ := retire_single_writes (s.setReg Reg.sp (wrap32 s.popAddress)) 2 A v
    refine ⟨hA, fun hne => ?_, fun hne => ?_, fun r hrA hrsp hrpc => ?_, retire_onlyRegisters _ 2 _⟩
    · rw [hothers Reg.sp hne.symm sp_ne_pc, reg_setReg, if_pos rfl, hsp]
    · rw [Advanced, hpc hne, reg_setReg, if_neg pc_ne_sp]
    · rw [hothers r hrA hrpc, reg_setReg, if_neg hrsp]
  next hout => exact execFaults_of_access rfl (loadWord_out hout)

/-- Settles O45: the pop reads where the push stored, because the advanced `sp` does not wrap in canonical memory. -/
theorem popUndoesPush : Obligations.PopUndoesPush := by
  intro s t A B hwf h0 h4 hpush
  obtain ⟨-, hpushAddress, hpushed⟩ := pushStoresThenAdvances s A
  rw [if_pos ⟨h0, h4⟩] at hpushed
  obtain ⟨t', ht', ⟨htsize, htbytes, -⟩, ⟨htsp, -, -⟩, -, -⟩ := hpushed
  cases hpush.symm.trans ht'
  obtain ⟨-, hpopAddress, hpopped⟩ := popRetreatsThenLoads t B
  obtain ⟨-, hsize⟩ := wf_size hwf
  have hspAdvanced : s32 (t.reg Reg.sp) = s32 (s.reg Reg.sp) + 4 := by
    rw [htsp]
    exact (congrArg s32 (wrap32_s32_add _ 4)).symm.trans (s32_wrap32_of_nonneg (by omega) (by omega))
  have hsame : t.popAddress = s.pushAddress := by omega
  rw [hsame, htsize, if_pos ⟨h0, h4⟩] at hpopped
  obtain ⟨u, v, hu, hbytes, huB, husp, -, -, ⟨-, hmem⟩, -⟩ := hpopped
  refine ⟨u, hu, ?_, fun hB => ?_, hmem⟩
  · rw [huB]
    exact bytesOfWord_injective (hbytes.symm.trans (htbytes hwf))
  · have hspBack : s32 (u.reg Reg.sp) = s32 (s.reg Reg.sp) := by rw [husp hB, hspAdvanced, Int.add_sub_cancel]
    exact BitVec.eq_of_toInt_eq hspBack

end Sys2Proof.Machine
end

section
/-! PROOF. The console: a step appends at most one event, what the four output instructions emit, and how a blocked
read completes (O18, O51 to O55). -/

namespace Sys2Proof.Machine

variable {s t u : State}

/-! ### The output only grows -/

/-- The output is what it was, or that with one event appended (10_state.md R30). -/
def OutputGrows (s t : State) : Prop := t.out = s.out ∨ ∃ e, t.out = s.out ++ [e]

/-- Of all an execute part can do outside the registers, its event alone reaches the output. -/
theorem ExecPart.outputGrows (h : ExecPart s u) : OutputGrows s u := by
  cases h with
  | same | storeWord | storeByte | takeInts | takeChars => exact .inl rfl
  | emit e => exact .inr ⟨e, rfl⟩

/-- A fault, the end of an instruction and HALT add nothing to what the execute part emitted. -/
theorem StepEffect.outputGrows (h : StepEffect s t) : OutputGrows s t := by
  cases h with
  | raise c => exact .inl rfl
  | retire hu len ws => simpa [OutputGrows] using hu.outputGrows
  | halt => exact .inl (retire_out s 1 [])

/-- Settles O18: every effect of a step appends at most one event. -/
theorem outputIsOnlyAppended : Obligations.OutputIsOnlyAppended :=
  fun _ _ hstep => (step_stepEffect hstep).outputGrows

/-! ### A blocked read and the value the host supplies -/

/-- INPUT takes the only value of the queue, which leaves the queue as empty as it was (44_console.md R152). -/
theorem exec_input_of_supplied (hq : s.inInts = []) (v : Word) :
    exec .input { s with inInts := [v] } = .next (s.retire 1 [(Reg.rs, v)]) := by
  cases s
  cases hq
  rfl

/-- INPUT_CHAR takes the only code of the queue, zero-extended (R153). -/
theorem exec_inputChar_of_supplied (hq : s.inChars = []) (c : Half) :
    exec .inputChar { s with inChars := [c] } = .next (s.retire 1 [(Reg.rs, c.setWidth 32)]) := by
  cases s
  cases hq
  rfl

/-- Settles O51: the queue is not read by the fetch, so the step runs the same read, which empties the queue again. -/
theorem suppliedReadCompletes : Obligations.SuppliedReadCompletes := by
  refine ⟨fun s t v hsupply => ?int, fun s t c hsupply => ?char⟩
  case int =>
    obtain ⟨hawaits, rfl⟩ := supplyInt_some hsupply
    obtain ⟨hf, ha, hq, hfetch⟩ := awaitsInt_iff.1 hawaits
    have hstep : step { s with inInts := [v] } = exec .input { s with inInts := [v] } := step_fetch_ok ha hf hfetch
    exact ⟨step_of_blocked (status_blocked_iff.2 (.inl hawaits)), _, hstep.trans (exec_input_of_supplied hq v),
      retire_single_writes s 1 Reg.rs v, retire_onlyRegisters s 1 _⟩
  case char =>
    obtain ⟨hawaits, rfl⟩ := supplyChar_some hsupply
    obtain ⟨hf, ha, hq, hfetch⟩ := awaitsChar_iff.1 hawaits
    have hstep : step { s with inChars := [c] } = exec .inputChar { s with inChars := [c] } :=
      step_fetch_ok ha hf hfetch
    exact ⟨step_of_blocked (status_blocked_iff.2 (.inr hawaits)), _, hstep.trans (exec_inputChar_of_supplied hq c),
      retire_single_writes s 1 Reg.rs _, retire_onlyRegisters s 1 _⟩

/-! ### The output instructions -/

/-- An output instruction that goes on appends its event and advances the pc, and nothing else changes
(44_console.md R151). -/
theorem retire_emit (s : State) (e : Event) (len : Nat) :
    Emits e s ((s.emit e).retire len []) ∧ WritesNoReg len s ((s.emit e).retire len []) ∧
      SameMemory s ((s.emit e).retire len []) ∧ SameControl s ((s.emit e).retire len []) := by
  obtain ⟨hmem, hcontrol, hconsole⟩ := retire_onlyRegisters (s.emit e) len []
  exact ⟨hconsole, retire_nil_writes (s.emit e) len, hmem, hcontrol⟩

/-- Settles O52: the event is the register's integer. -/
theorem outputEmitsInteger : Obligations.OutputEmitsInteger :=
  fun s _ => ⟨rfl, _, rfl, retire_emit s _ 2⟩

/-- Settles O53: the event is the register's low half. -/
theorem outputCharEmitsLowHalf : Obligations.OutputCharEmitsLowHalf :=
  fun s _ => ⟨rfl, _, rfl, retire_emit s _ 2⟩

/-- Settles O54: the loop finds the string exactly where there is one, before anything is emitted. -/
theorem outputStrEmitsWholeString : Obligations.OutputStrEmitsWholeString :=
  fun s _ => ⟨rfl, fun str hstring => ⟨_, exec_of_access rfl (loadString_iff.2 hstring), retire_emit s (.outStr str) 2⟩,
    fun hnone => execFaults_of_access rfl (loadString_none.2 hnone)⟩

/-- Settles O55: the count decides whether the range is checked, and the check whether its bytes are emitted. -/
theorem coreDumpEmitsRange : Obligations.CoreDumpEmitsRange := by
  intro s A B
  refine ⟨rfl, ?_⟩
  split_ifs with hcount hin
  · exact ⟨_, exec_of_access rfl (dumpBytes_none_to_dump s _ hcount), retire_emit s (.outDump (s.reg A) []) 3⟩
  · exact ⟨_, exec_of_access rfl (dumpBytes_in s (Int.not_le.1 hcount) hin), retire_emit s _ 3⟩
  · exact execFaults_of_access rfl (dumpBytes_out s (Int.not_le.1 hcount) hin)

end Sys2Proof.Machine
end

section
/-! PROOF. The tokenizer's example, and the registers' names in either case (O59, O60). -/

namespace Sys2Proof.Machine

variable {w : List Char} {tok : Token}

/-- Settles O60: the state machine run on the text. -/
theorem tokenizerExample : Obligations.TokenizerExample := rfl

/-- A line that is the text of one token. -/
theorem tokenize_of_spells (h : Spells w tok) : tokenize w = .ok [tok] := by
  have hline := tokensFrom_words h .nil (Config.endOfLineColumn w) 1
  rwa [List.flatMap_nil, List.append_nil] at hline

/-- A valid register text after its `$` is one Register token (45_assembler.md R173). -/
theorem spells_register {text : List Char} (htext : text.all registerChar = true)
    (htok : Token.ofRegister text = some tok) : Spells ('$' :: text) tok where
  solid := by
    rw [List.all_eq_true] at htext
    simp_all [registerChar]
  scan e col rest := by
    refine ⟨.register text col, col + 1 + text.length, ?_, ?_, ?_⟩
    · rw [List.cons_append, tokensFrom_cons_silent (st' := .register [] col) rfl]
      exact tokensFrom_accumulate (next_register col) htext [] rest
    · simp [TokState.flush, htok]
    · simp [TokState.next, registerMove, htok]

/-- Lower-casing a text does not change its upper case. -/
theorem upper_map_toLower (text : List Char) : upper (text.map Char.toLower) = upper text := by
  simp [upper]

/-- A register's text names the same register in lower case (R167). -/
theorem ofRegister_map_toLower (text : List Char) :
    Token.ofRegister (text.map Char.toLower) = Token.ofRegister text := by
  rw [Token.ofRegister, upper_map_toLower, Token.ofRegister]

theorem registerChar_regToken_toLower (r : Reg) : ((regToken r).text.map Char.toLower).all registerChar = true := by
  fin_cases r <;> rfl

/-- A register's printed name in lower case is the token of the printed name. -/
theorem spells_printReg_toLower (r : Reg) : Spells ((printReg r).map Char.toLower) (regToken r) := by
  have htok : Token.ofRegister ((regToken r).text.map Char.toLower) = some (regToken r) := by
    rw [ofRegister_map_toLower, ofRegister_regToken]
  exact spells_register (registerChar_regToken_toLower r) htok

/-- Settles O59: each name is one token in either case, and that token names its register. -/
theorem registerNamesRoundTrip : Obligations.RegisterNamesRoundTrip := by
  refine ⟨rfl, fun r => ⟨⟨regToken r, ?printed, regToken_reg r⟩, ⟨regToken r, ?lower, regToken_reg r⟩⟩⟩
  case printed => exact tokenize_of_spells (spells_printReg r)
  case lower => exact tokenize_of_spells (spells_printReg_toLower r)

end Sys2Proof.Machine
end

section
/-! PROOF. The label table, the instruction lines, their offsets and the patch: a label's literal is the place of its
line's bytes (O57). -/

namespace Sys2Proof.Machine

variable {t t' : LabelTable} {l : SourceLine} {ls : List SourceLine} {il : InstrLine} {ils : List InstrLine}
  {index k : Nat} {name : List Char} {names : List (List Char)}

/-! ### Pass 1: where a label of the table stands -/

/-- A name in a table one label longer is in the table, or is that label. -/
theorem find_append_single {name' : List Char} (h : LabelTable.find (t ++ [(name', index)]) name = some k) :
    t.find name = some k ∨ name' = name ∧ index = k := by
  simp only [LabelTable.find, List.find?_append, List.find?_singleton] at h ⊢
  cases ht : List.find? (fun e => e.1 == name) t with
  | some e => exact .inl (by simpa [ht] using h)
  | none => exact .inr (by simpa [ht] using h)

/-- A name in the table after a line's labels are added is in the table before, or is one of them (45_assembler.md
R179). -/
theorem find_of_addLabels (hadd : addLabels index t names = some t') (hfind : t'.find name = some k) :
    t.find name = some k ∨ name ∈ names ∧ k = index := by
  induction names generalizing t with
  | nil =>
    cases hadd
    exact .inl hfind
  | cons name' names ih =>
    simp only [addLabels] at hadd
    split at hadd
    · cases hadd
    obtain hold | ⟨hmem, hk⟩ := ih hadd
    · obtain hold | ⟨hname, hk⟩ := find_append_single hold
      · exact .inl hold
      · exact .inr ⟨hname ▸ List.mem_cons_self, hk.symm⟩
    · exact .inr ⟨List.mem_cons_of_mem _ hmem, hk⟩

/-- `name` is one of the leading labels of the line `l` (R166). -/
def Labels (name : List Char) (l : SourceLine) : Prop :=
  ∃ toks, tokenize l.text = .ok toks ∧ name ∈ (splitLabels toks).1

/-- What pass 1 can do to a line that starts a program: its labels are new, and the lines after it pass too (R179). -/
theorem passOne_cons_ok (h : passOne index t (l :: ls) = .ok t') :
    ∃ toks t₁, tokenize l.text = .ok toks ∧ addLabels index t (splitLabels toks).1 = some t₁ ∧
      passOne (index + 1) t₁ ls = .ok t' := by
  simp only [passOne] at h
  split at h
  · cases h
  split at h
  · cases h
  split at h
  · cases h
  exact ⟨_, _, ‹_›, ‹_›, h⟩

/-- A name in the table after pass 1 is in the table before, or labels the line whose index the table gives. -/
theorem find_of_passOne (h : passOne index t ls = .ok t') (hfind : t'.find name = some k) :
    t.find name = some k ∨ ∃ j l, k = index + j ∧ ls[j]? = some l ∧ Labels name l := by
  induction ls generalizing index t with
  | nil =>
    cases h
    exact .inl hfind
  | cons l ls ih =>
    obtain ⟨toks, t₁, htoks, hadd, hrest⟩ := passOne_cons_ok h
    obtain hold | ⟨j, l', hk, hl', hlabels⟩ := ih hrest
    · obtain hold | ⟨hmem, hk⟩ := find_of_addLabels hadd hold
      · exact .inl hold
      · exact .inr ⟨0, l, hk, rfl, toks, htoks, hmem⟩
    · exact .inr ⟨j + 1, l', by omega, hl', hlabels⟩

/-- A name in the program's label table labels the line the table gives. -/
theorem labels_of_find (h : passOne 0 [] ls = .ok t) (hfind : t.find name = some k) :
    ∃ l, ls[k]? = some l ∧ Labels name l := by
  obtain hold | ⟨j, l, rfl, hl, hlabels⟩ := find_of_passOne h hfind
  · cases hold
  · exact ⟨l, by rwa [Nat.zero_add], hlabels⟩

/-! ### Pass 2: the instruction line of each source line -/

/-- `il` is what pass 2 makes of the line `l` (R181). -/
def LineResolves (t : LabelTable) (l : SourceLine) (il : InstrLine) : Prop :=
  ∃ toks b, tokenize l.text = .ok toks ∧ bodyOfTokens (splitLabels toks).2 = .ok b ∧ resolveBody t b = some il

/-- Pass 2 resolves the lines one by one. -/
theorem passTwo_forall₂ (h : passTwo t ls = .ok ils) : List.Forall₂ (LineResolves t) ls ils := by
  induction ls generalizing ils with
  | nil =>
    cases h
    exact .nil
  | cons l ls ih =>
    obtain ⟨toks, b, il, ils', htoks, hb, hil, hrest, rfl⟩ := passTwo_cons_ok h
    exact .cons ⟨toks, b, htoks, hb, hil⟩ (ih hrest)

/-- Related lists have related elements at each place. -/
theorem exists_getElem?_of_forall₂ {α β : Type} {R : α → β → Prop} {as : List α} {bs : List β} {a : α}
    (h : List.Forall₂ R as bs) (ha : as[k]? = some a) : ∃ b, bs[k]? = some b ∧ R a b := by
  obtain ⟨hk, rfl⟩ := List.getElem?_eq_some_iff.1 ha
  have hk' : k < bs.length := h.length_eq ▸ hk
  exact ⟨bs[k], List.getElem?_eq_getElem hk', h.get hk hk'⟩

/-- A line is flagged with an index only for a literal that is no number and that the table gives the index for
(R180). -/
theorem resolveBody_flagged {b : Body} {f : Word → Instr} (h : resolveBody t b = some (.flagged f index)) :
    ∃ tok, b = .lacking f tok ∧ tok.number = none ∧ t.find tok.text = some index := by
  cases b with
  | complete i => cases h
  | lacking g tok =>
    simp only [resolveBody] at h
    split at h
    · cases h
    next hnone =>
      obtain ⟨index', hfind, heq⟩ := Option.map_eq_some_iff.1 h
      cases heq
      exact ⟨tok, rfl, hnone, hfind⟩

/-! ### The patch keeps a line's length -/

/-- Every instruction of a mnemonic's row has the length of the row's format (30_encoding.md R61). -/
theorem length_of_makes_mnemonic {text : List Char} {sh : Shape} {rs : List Reg} {lit : Option Word} {i : Instr}
    (h : shapeOfMnemonic text = some sh) (hi : sh.Makes rs lit i) : i.length = sh.format.length := by
  obtain ⟨row, hfind, rfl⟩ := Option.map_eq_some_iff.1 h
  have hrow : row ∈ mnemonicTable := List.mem_of_find?_eq_some hfind
  fin_cases hrow <;> cases hi <;> rfl

/-- Operands that lack their literal are a row's instruction, whatever the literal (45_assembler.md R178). -/
theorem makes_of_bodyOfOperands {sh : Shape} {ts : List Token} {f : Word → Instr} {tok : Token}
    (h : bodyOfOperands sh ts = some (.lacking f tok)) : ∃ rs, ∀ v, sh.Makes rs (some v) (f v) := by
  unfold bodyOfOperands at h
  split at h <;> simp only [Option.bind_eq_some_iff, Option.map_eq_some_iff, Option.ite_none_right_eq_some,
    Option.some.injEq, reduceCtorEq, Body.lacking.injEq, and_false, exists_false] at h
  next g t =>
    obtain ⟨-, rfl, -⟩ := h
    exact ⟨[], .l g⟩
  next g a t =>
    obtain ⟨r, -, -, rfl, -⟩ := h
    exact ⟨[r], .rl g r⟩

/-- The literal a line lacks does not change its instruction's length. -/
theorem length_of_lacking {toks : List Token} {f : Word → Instr} {tok : Token}
    (h : bodyOfTokens toks = .ok (.lacking f tok)) (v w : Word) : (f v).length = (f w).length := by
  unfold bodyOfTokens at h
  split at h
  · cases h
  split at h
  · split at h
    · cases h
    next hsh =>
      split at h <;> cases h
      next hbody =>
        obtain ⟨rs, hmakes⟩ := makes_of_bodyOfOperands hbody
        rw [length_of_makes_mnemonic hsh (hmakes v), length_of_makes_mnemonic hsh (hmakes w)]
  · cases h

/-- A line's patched instruction is as long as its provisional one, wherever its label's line starts (R182, R183). -/
theorem length_patchLine (h : LineResolves t l il) (ils : List InstrLine) :
    (patchLine ils il).length = il.provisional.length := by
  obtain ⟨toks, b, -, hb, hil⟩ := h
  cases il with
  | done i => rfl
  | flagged f index =>
    obtain ⟨tok, rfl, -, -⟩ := resolveBody_flagged hil
    exact length_of_lacking hb _ _

/-! ### Offsets and the image -/

theorem encodeAll_append (is js : List Instr) : encodeAll (is ++ js) = encodeAll is ++ encodeAll js :=
  List.flatMap_append

theorem encodeAll_length (is : List Instr) : (encodeAll is).length = (is.map Instr.length).sum := by
  simp [encodeAll, List.length_flatMap]

/-- After the bytes of the first `k` instructions come those of the others. -/
theorem encodeAll_drop (is : List Instr) (k : Nat) :
    (encodeAll is).drop ((is.take k).map Instr.length).sum = encodeAll (is.drop k) := by
  have hsplit : encodeAll is = encodeAll (is.take k) ++ encodeAll (is.drop k) := by
    rw [← encodeAll_append, List.take_append_drop]
  rw [hsplit, ← encodeAll_length, List.drop_left]

/-- A line's offset is the length of the patched instructions before it. -/
theorem lineOffset_eq_sum (h : List.Forall₂ (LineResolves t) ls ils) (k : Nat) :
    lineOffset ils k = (((ils.map (patchLine ils)).take k).map Instr.length).sum := by
  have hlength : ∀ il ∈ ils, il.provisional.length = (patchLine ils il).length := fun il hil => by
    obtain ⟨j, hj⟩ := List.mem_iff_getElem?.1 hil
    obtain ⟨l, -, hresolves⟩ := exists_getElem?_of_forall₂ h.flip hj
    exact (length_patchLine hresolves ils).symm
  rw [lineOffset, ← List.map_take, List.map_map]
  exact congrArg List.sum (List.map_congr_left fun il hil => hlength il (List.mem_of_mem_take hil))

/-- The offset of a line is where its bytes begin in the image (R182, R184). -/
theorem encodeAll_drop_lineOffset (h : List.Forall₂ (LineResolves t) ls ils) (k : Nat) :
    (encodeAll (ils.map (patchLine ils))).drop (lineOffset ils k) =
      encodeAll ((ils.map (patchLine ils)).drop k) := by
  rw [lineOffset_eq_sum h, encodeAll_drop]

/-! ### The obligation -/

/-- Where both passes succeed, the image is the encodings of the patched lines (R184). -/
theorem assemble_of_passes {src : List Char} (hone : passOne 0 [] (sourceLines src) = .ok t)
    (htwo : passTwo t (sourceLines src) = .ok ils) : assemble src = .ok (encodeAll (ils.map (patchLine ils))) := by
  simp only [assemble, assembleInstrs, hone, htwo]

/-- The patched instruction at a line's place is that of what its body resolves to. -/
theorem getElem?_patched {toks : List Token} {b : Body} (h : List.Forall₂ (LineResolves t) ls ils)
    (hl : ls[k]? = some l) (htoks : tokenize l.text = .ok toks) (hb : bodyOfTokens (splitLabels toks).2 = .ok b) :
    ∃ il, resolveBody t b = some il ∧ (ils.map (patchLine ils))[k]? = some (patchLine ils il) := by
  obtain ⟨il, hil, toks', b', htoks', hb', hresolve⟩ := exists_getElem?_of_forall₂ h hl
  cases htoks.symm.trans htoks'
  cases hb.symm.trans hb'
  exact ⟨il, hresolve, by rw [List.getElem?_map, hil, Option.map_some]⟩

/-- Settles O57: the patch keeps every line's length, so the offsets are places in the image; and what a line's literal
resolves to is what the two passes say of its token. -/
theorem labelOffsetIsItsLinesPlace : Obligations.LabelOffsetIsItsLinesPlace := by
  intro src t ils hone htwo
  have hlines := passTwo_forall₂ htwo
  refine ⟨assemble_of_passes hone htwo, fun k _ => encodeAll_drop_lineOffset hlines k,
    fun k l toks b hl htoks hb => ?_⟩
  obtain ⟨il, hresolve, hpatched⟩ := getElem?_patched hlines hl htoks hb
  cases b with
  | complete i =>
    cases hresolve
    exact hpatched
  | lacking f tok =>
    simp only [resolveBody] at hresolve
    split at hresolve
    next v hv =>
      cases hresolve
      simpa only [hv, patchLine] using hpatched
    next hnone =>
      obtain ⟨index, hfind, rfl⟩ := Option.map_eq_some_iff.1 hresolve
      obtain ⟨l', hl', toks', htoks', hmem⟩ := labels_of_find hone hfind
      simp only [hnone]
      exact ⟨index, l', toks', hfind, hl', htoks', hmem, hpatched⟩

end Sys2Proof.Machine
end

