-- ==== Sys2Proof/Proofs/LoadState.lean ====
section
/-! PROOF. What a load leaves of every piece of state, and which images it refuses (O17). -/

namespace Sys2Proof.Machine

/-! ### The state before the image is written -/

/-- The register table of R32: every register is 0, and so is the pc, as the image is loaded at 0. -/
theorem reg_reset (r : Reg) : State.reset.reg r = 0 := by
  revert r
  decide

/-- Memory with no byte written is canonical exactly when its size is legal (00_scope.md R6). -/
theorem wf_of_no_cells (memSize : Nat) : Memory.wf { size := memSize, cells := [] } = memSizeWellFormed memSize :=
  Bool.and_true _

/-- Memory with no byte written is all zeros. -/
theorem byte_of_no_cells (memSize a : Nat) : Memory.byte { size := memSize, cells := [] } a = 0 := rfl

/-! ### The two outcomes of a load (70_reset_and_hazards.md R221) -/

theorem load_of_too_long {memSize : Nat} {image : List Byte} (h : memSize < image.length) :
    State.load memSize image = none :=
  if_neg (by simp [imageFits, h])

theorem load_of_fits {memSize : Nat} {image : List Byte} (hsize : memSizeWellFormed memSize = true)
    (hfits : image.length ≤ memSize) :
    State.load memSize image =
      some { State.reset with mem := Memory.setBytes { size := memSize, cells := [] } Config.loadBase image } :=
  if_pos (by simp [hsize, imageFits, hfits])

/-! ### The obligation -/

/-- Settles O17: a load is the reset state with one write of the image into zeros, and that write is in range. -/
theorem loadGivesResetState : Obligations.LoadGivesResetState := by
  intro memSize image hsize
  refine ⟨load_of_too_long, fun hfits => ?_⟩
  have hload := load_of_fits hsize hfits
  have hzeros : Memory.wf { size := memSize, cells := [] } = true := (wf_of_no_cells memSize).trans hsize
  have hrange : Config.loadBase + image.length ≤ memSize := (Nat.zero_add _).trans_le hfits
  refine ⟨_, hload, reg_reset, (load_size_started hload).1, bytes_setBytes hzeros hrange, fun a ha => ?after,
    rfl, rfl, rfl, load_wf hload, fun h => ?fault, fun _ => ⟨rfl, rfl⟩⟩
  case after =>
    have houtside : Config.loadBase + image.length ≤ a := (Nat.zero_add _).trans_le ha
    exact (byte_setBytes_outside (.inr houtside)).trans (byte_of_no_cells memSize a)
  case fault => cases h

end Sys2Proof.Machine
end

section
/-! PROOF. The console outside its six opcodes, the reset state, and the two reads (O16, O21, O50). -/

namespace Sys2Proof.Machine

variable {s t u : State} {k : Cause}

/-! ### The reset state -/

/-- Settles O16: the reset memory has no byte written, no fault is recorded, and the engine starts active with no
output. -/
theorem resetMeetsInvariant : Obligations.ResetMeetsInvariant := by
  refine ⟨reset_mem_wf, fun hfault => ?_, fun _ => ⟨rfl, rfl⟩⟩
  cases hfault

/-! ### The instructions that leave the console alone -/

/-- The writes and the advance of the pc that end an instruction leave the console as its execute part left it. -/
theorem SameConsole.retire (h : SameConsole s u) (len : Nat) (ws : List (Reg × Word)) :
    SameConsole s (u.retire len ws) := by
  simpa [SameConsole] using h

/-- An instruction whose check is an access leaves the console alone if it does so with every value the access gives:
a runtime fault leaves it alone too (40_cycle.md R86). -/
theorem sameConsole_of_orRaise_map {α : Type} {o : Option α} {f : α → State} (h : orRaise s k (o.map f) = .next t)
    (hf : ∀ x, SameConsole s (f x)) : SameConsole s t := by
  obtain h | ⟨-, rfl⟩ := orRaise_next.1 h
  · obtain ⟨x, -, rfl⟩ := Option.map_eq_some_iff.1 h
    exact hf x
  · exact ⟨rfl, rfl, rfl⟩

/-- DIV leaves the console alone on both sides of its check (41_alu.md R94). -/
theorem exec_div_sameConsole {A B C : Reg} (h : exec (.div A B C) s = .next t) : SameConsole s t := by
  by_cases hB : s.reg B = 0
  · cases (exec_div_zero A C hB).symm.trans h
    exact ⟨rfl, rfl, rfl⟩
  · cases (exec_div_nonzero A C hB).symm.trans h
    exact .retire ⟨rfl, rfl, rfl⟩ _ _

/-- Settles O21: outside the six opcodes an instruction ends in registers and memory only, or takes a runtime fault. -/
theorem consoleOnlyThroughItsOpcodes : Obligations.ConsoleOnlyThroughItsOpcodes := by
  intro i s t h hop
  cases i
  case input | inputChar | output | outputChar | outputStr | coreDump => simp [Instr.opcode] at hop
  case nop | add | subt | mult | neg | and | or | lshift | rshift | gt | lt | eq | copy | loadLit | set
      | branch | jump | jumpLit | jumpLabel | branchLit | halt =>
    cases h
    exact .retire ⟨rfl, rfl, rfl⟩ _ _
  case div => exact exec_div_sameConsole h
  case pushStk | popStk | load | loadByte | store | storeByte =>
    exact sameConsole_of_orRaise_map h fun _ => .retire ⟨rfl, rfl, rfl⟩ _ _

/-! ### The two reads -/

/-- INPUT with no integer supplied has no transition (44_console.md R150). -/
theorem exec_input_nil (hq : s.inInts = []) : exec .input s = .fault .consoleBlocked := by
  simp [exec, execInput, hq]

/-- INPUT takes the first integer of the queue (R152). -/
theorem exec_input_cons {v : Word} {vs : List Word} (hq : s.inInts = v :: vs) :
    exec .input s = .next (State.retire { s with inInts := vs } 1 [(Reg.rs, v)]) := by
  simp [exec, execInput, hq]

/-- INPUT_CHAR with no character supplied has no transition (R150). -/
theorem exec_inputChar_nil (hq : s.inChars = []) : exec .inputChar s = .fault .consoleBlocked := by
  simp [exec, execInputChar, hq]

/-- INPUT_CHAR takes the first code of the queue, zero-extended (R153). -/
theorem exec_inputChar_cons {c : Half} {cs : List Half} (hq : s.inChars = c :: cs) :
    exec .inputChar s = .next (State.retire { s with inChars := cs } 1 [(Reg.rs, c.setWidth 32)]) := by
  simp [exec, execInputChar, hq]

/-- Settles O50: a read ends like an instruction that writes `rs`, from the state whose queue is one shorter. -/
theorem inputTakesNextAnswer : Obligations.InputTakesNextAnswer := by
  refine fun s => ⟨rfl, rfl, ?int, ?char⟩
  case int =>
    split
    next hq => exact exec_input_nil hq
    next v vs hq =>
      obtain ⟨hmem, hcontrol, hconsole⟩ := retire_onlyRegisters { s with inInts := vs } 1 [(Reg.rs, v)]
      exact ⟨_, exec_input_cons hq, retire_single_writes _ 1 Reg.rs v, hmem, hcontrol, hconsole⟩
  case char =>
    split
    next hq => exact exec_inputChar_nil hq
    next c cs hq =>
      obtain ⟨hmem, hcontrol, hconsole⟩ := retire_onlyRegisters { s with inChars := cs } 1 [(Reg.rs, c.setWidth 32)]
      have hzeroExtended : (c.setWidth 32).toNat = c.toNat := BitVec.toNat_setWidth_of_le (by decide)
      exact ⟨_, _, exec_inputChar_cons hq, hzeroExtended, retire_single_writes _ 1 Reg.rs _, hmem, hcontrol,
        hconsole⟩

end Sys2Proof.Machine
end
